-- ==== Sys2Proof/Word.lean ====
section
/-! DEFINITION. The machine's native units: the 16-bit Word (00_scope.md R9, R16) and the byte that a memory cell of the
host's interface holds. -/

namespace Sys2Proof

/-- A Word: 16 bits, bit 0 least significant; `+` and `-` wrap modulo 2^16 (00_scope.md R8, R9). -/
abbrev Word := BitVec 16

/-- Half a Word: what one `Host.Cell` of the memory list holds. No instruction of the hardware names one
(20_memory.md R48, R49). -/
abbrev Byte := BitVec 8

end Sys2Proof
end

