-- ==== Sys2Proof/Syntax.lean ====
section
/-! DEFINITION. The instruction syntax: one constructor per row of spec/opcode_table.json (30_encoding.md R70). -/

namespace Sys2Proof

/-- A general register index, R0 to R7 (10_state.md R20, 30_encoding.md R67). -/
abbrev Reg := Fin 8

/-- An instruction with the operands its row of 30_encoding.md R70 names. An immediate or offset is its signed value and a
trap vector its unsigned value; the ranges are 30_encoding.md R69's, checked by `Instr.WellFormed`. Bits marked `x` there
belong to no field (R72), so no constructor holds them. -/
inductive Instr where
  /-- BR: test flags n, z, p and PCoffset9 (43_control.md R130). -/
  | br (n z p : Bool) (pcOffset9 : Int)
  /-- ADD, register form (41_operate.md R106). -/
  | addReg (dr sr1 sr2 : Reg)
  /-- ADD, immediate form (41_operate.md R107). -/
  | addImm (dr sr1 : Reg) (imm5 : Int)
  /-- LD (42_data_movement.md R116). -/
  | ld (dr : Reg) (pcOffset9 : Int)
  /-- ST (42_data_movement.md R117). -/
  | st (sr : Reg) (pcOffset9 : Int)
  /-- JSR (43_control.md R132). -/
  | jsr (pcOffset11 : Int)
  /-- JSRR (43_control.md R133). -/
  | jsrr (baseR : Reg)
  /-- AND, register form (41_operate.md R108). -/
  | andReg (dr sr1 sr2 : Reg)
  /-- AND, immediate form (41_operate.md R109). -/
  | andImm (dr sr1 : Reg) (imm5 : Int)
  /-- LDR (42_data_movement.md R118). -/
  | ldr (dr baseR : Reg) (offset6 : Int)
  /-- STR (42_data_movement.md R119). -/
  | str (sr baseR : Reg) (offset6 : Int)
  /-- RTI, opcode 8, not implemented (43_control.md R136). -/
  | rti
  /-- NOT (41_operate.md R110). -/
  | not (dr sr : Reg)
  /-- LDI (42_data_movement.md R120). -/
  | ldi (dr : Reg) (pcOffset9 : Int)
  /-- STI (42_data_movement.md R121). -/
  | sti (sr : Reg) (pcOffset9 : Int)
  /-- JMP, also RET (43_control.md R134). -/
  | jmp (baseR : Reg)
  /-- Opcode 13, reserved, not implemented (43_control.md R137). -/
  | reserved13
  /-- LEA (42_data_movement.md R122). -/
  | lea (dr : Reg) (pcOffset9 : Int)
  /-- TRAP (43_control.md R135). -/
  | trap (trapvect8 : Nat)
deriving DecidableEq, Repr

end Sys2Proof
end

