-- ==== Sys2Proof/WellFormed.lean ====
section
/-! DEFINITION. When an instruction can be encoded: each immediate, offset and vector lies in the range of its field
(30_encoding.md R69). Register indices are in range by their type. -/

namespace Sys2Proof

/-- A signed value fits a field of `bits` bits: -2^(bits-1) up to 2^(bits-1) - 1 (30_encoding.md R69). -/
abbrev FitsSigned (bits : Nat) (v : Int) : Prop := -(2 ^ (bits - 1) : Int) ≤ v ∧ v < (2 ^ (bits - 1) : Int)

/-- An unsigned value fits a field of `bits` bits (30_encoding.md R69). -/
abbrev FitsUnsigned (bits : Nat) (v : Nat) : Prop := v < 2 ^ bits

/-- Every field value is in its range (30_encoding.md R69). -/
def Instr.wellFormed : Instr → Bool
  | .br _ _ _ pcOffset9 => decide (FitsSigned 9 pcOffset9)
  | .addReg _ _ _ => true
  | .addImm _ _ imm5 => decide (FitsSigned 5 imm5)
  | .ld _ pcOffset9 => decide (FitsSigned 9 pcOffset9)
  | .st _ pcOffset9 => decide (FitsSigned 9 pcOffset9)
  | .jsr pcOffset11 => decide (FitsSigned 11 pcOffset11)
  | .jsrr _ => true
  | .andReg _ _ _ => true
  | .andImm _ _ imm5 => decide (FitsSigned 5 imm5)
  | .ldr _ _ offset6 => decide (FitsSigned 6 offset6)
  | .str _ _ offset6 => decide (FitsSigned 6 offset6)
  | .rti => true
  | .not _ _ => true
  | .ldi _ pcOffset9 => decide (FitsSigned 9 pcOffset9)
  | .sti _ pcOffset9 => decide (FitsSigned 9 pcOffset9)
  | .jmp _ => true
  | .reserved13 => true
  | .lea _ pcOffset9 => decide (FitsSigned 9 pcOffset9)
  | .trap trapvect8 => decide (FitsUnsigned 8 trapvect8)

/-- The check as a proposition. -/
abbrev Instr.WellFormed (i : Instr) : Prop := i.wellFormed = true

end Sys2Proof
end

