-- ==== Sys2Proof/Decode.lean ====
section
/-! DEFINITION. The bit-field codec (00_scope.md R10, R11), the instruction decoder (30_encoding.md R65 to R75) and, after it,
the encoder written from the same layouts (30_encoding.md R70, R82). -/

namespace Sys2Proof

/-! ### The codec -/

/-- `extract_field(word, low_bit, high_bit, sign_extend)`: bits `hi..lo` of `w`, extended to 16 bits by the field's top bit or
by zeros. The source constrains `lo ≤ hi ≤ 15` (00_scope.md R10). -/
def extractField (w : Word) (lo hi : Nat) (signExtend : Bool) : Word :=
  if signExtend then (w.extractLsb' lo (hi - lo + 1)).signExtend 16
  else (w.extractLsb' lo (hi - lo + 1)).setWidth 16

/-- `to_bit_array(w)`: entry `i` is bit `i` of `w` (00_scope.md R11). -/
def toBitArray (w : Word) : Vector Bool 16 := Vector.ofFn fun i => w.getLsbD i.val

/-- The signed value of a sign-extended field (30_encoding.md R69). -/
def signedField (w : Word) (lo hi : Nat) : Int := (extractField w lo hi true).toInt

/-- The value of a zero-extended field (30_encoding.md R69). -/
def unsignedField (w : Word) (lo hi : Nat) : Nat := (extractField w lo hi false).toNat

/-- The register that the 3-bit field with lowest bit `lo` names (30_encoding.md R67). -/
def regField (w : Word) (lo : Nat) : Reg := (w.extractLsb' lo 3).toFin

/-! ### The decoder -/

/-- The closed enumeration of the 16 opcode ids, with explicit variants for 8 and 13 (30_encoding.md R71, R75). -/
inductive Opcode where
  | br | add | ld | st | jsr | and | ldr | str | rti | not | ldi | sti | jmp | reserved13 | lea | trap
deriving DecidableEq, Repr

/-- The variants in the order of their opcode ids 0 to 15 (30_encoding.md R71). -/
def Opcode.byId : Vector Opcode 16 :=
  #v[.br, .add, .ld, .st, .jsr, .and, .ldr, .str, .rti, .not, .ldi, .sti, .jmp, .reserved13, .lea, .trap]

/-- `decode(ir) = ir[15:12]` (30_encoding.md R66). -/
def decodeOpcode (ir : Word) : Opcode := Opcode.byId[(ir.extractLsb' 12 4).toFin]

/-- The instruction of an instruction Word: total, since no encoding is illegal (30_encoding.md R73). The mode bits 5 and 11
split ADD, AND and JSR in two (R68); a bit that no field reads is ignored (R72, UNVERIFIED: the spec's decision D5, unsafe, log entry 8). -/
def decode (ir : Word) : Instr :=
  match decodeOpcode ir with
  | .br => .br (ir.getLsbD 11) (ir.getLsbD 10) (ir.getLsbD 9) (signedField ir 0 8)
  | .add =>
    if ir.getLsbD 5 then .addImm (regField ir 9) (regField ir 6) (signedField ir 0 4)
    else .addReg (regField ir 9) (regField ir 6) (regField ir 0)
  | .ld => .ld (regField ir 9) (signedField ir 0 8)
  | .st => .st (regField ir 9) (signedField ir 0 8)
  | .jsr => if ir.getLsbD 11 then .jsr (signedField ir 0 10) else .jsrr (regField ir 6)
  | .and =>
    if ir.getLsbD 5 then .andImm (regField ir 9) (regField ir 6) (signedField ir 0 4)
    else .andReg (regField ir 9) (regField ir 6) (regField ir 0)
  | .ldr => .ldr (regField ir 9) (regField ir 6) (signedField ir 0 5)
  | .str => .str (regField ir 9) (regField ir 6) (signedField ir 0 5)
  | .rti => .rti
  | .not => .not (regField ir 9) (regField ir 6)
  | .ldi => .ldi (regField ir 9) (signedField ir 0 8)
  | .sti => .sti (regField ir 9) (signedField ir 0 8)
  | .jmp => .jmp (regField ir 6)
  | .reserved13 => .reserved13
  | .lea => .lea (regField ir 9) (signedField ir 0 8)
  | .trap => .trap (unsignedField ir 0 7)

/-- Why a list of bytes holds no instruction. -/
inductive DecodeError where
  /-- Fewer than the two bytes of one instruction Word (30_encoding.md R65). -/
  | truncated
deriving DecidableEq, Repr

/-- The two bytes of a Word in the order of the memory cells, low byte first. DESIGN CHOICE: the hardware has no byte order
(20_memory.md R49); safe (log entry 4). -/
def wordBytes (w : Word) : List Byte := [w.extractLsb' 0 8, w.extractLsb' 8 8]

/-- The Word of two bytes in that order. -/
def wordOfBytes (low high : Byte) : Word := high ++ low

/-- The first instruction of a list of bytes, and the rest (30_encoding.md R65). -/
def decodeBytes : List Byte → Except DecodeError (Instr × List Byte)
  | low :: high :: rest => .ok (decode (wordOfBytes low high), rest)
  | _ => .error .truncated

/-- The host's question: the instruction whose bits, numbered as spec/opcode_table.json numbers them, are the low `nbits` bits
of `w`, the bits above being 0. -/
def decodeTableWord (nbits w : Nat) : Option Instr :=
  match decodeBytes (wordBytes (BitVec.ofNat 16 (w % 2 ^ nbits))) with
  | .ok (i, _) => some i
  | .error _ => none

/-! ### The encoder -/

/-- The 3-bit field of a register index (30_encoding.md R67). -/
def fieldOfReg (r : Reg) : BitVec 3 := BitVec.ofFin r

/-- The Word of an instruction (30_encoding.md R70). In a bit that its row ignores the encoder writes what 30_encoding.md R82's
assembler writes: ones in NOT's bits 5..0, zeros elsewhere. -/
def encode : Instr → Word
  | .br n z p pcOffset9 => 0b0000#4 ++ BitVec.ofBool n ++ BitVec.ofBool z ++ BitVec.ofBool p ++ BitVec.ofInt 9 pcOffset9
  | .addReg dr sr1 sr2 => 0b0001#4 ++ fieldOfReg dr ++ fieldOfReg sr1 ++ 0b0#1 ++ 0b00#2 ++ fieldOfReg sr2
  | .addImm dr sr1 imm5 => 0b0001#4 ++ fieldOfReg dr ++ fieldOfReg sr1 ++ 0b1#1 ++ BitVec.ofInt 5 imm5
  | .ld dr pcOffset9 => 0b0010#4 ++ fieldOfReg dr ++ BitVec.ofInt 9 pcOffset9
  | .st sr pcOffset9 => 0b0011#4 ++ fieldOfReg sr ++ BitVec.ofInt 9 pcOffset9
  | .jsr pcOffset11 => 0b0100#4 ++ 0b1#1 ++ BitVec.ofInt 11 pcOffset11
  | .jsrr baseR => 0b0100#4 ++ 0b0#1 ++ 0b00#2 ++ fieldOfReg baseR ++ 0b000000#6
  | .andReg dr sr1 sr2 => 0b0101#4 ++ fieldOfReg dr ++ fieldOfReg sr1 ++ 0b0#1 ++ 0b00#2 ++ fieldOfReg sr2
  | .andImm dr sr1 imm5 => 0b0101#4 ++ fieldOfReg dr ++ fieldOfReg sr1 ++ 0b1#1 ++ BitVec.ofInt 5 imm5
  | .ldr dr baseR offset6 => 0b0110#4 ++ fieldOfReg dr ++ fieldOfReg baseR ++ BitVec.ofInt 6 offset6
  | .str sr baseR offset6 => 0b0111#4 ++ fieldOfReg sr ++ fieldOfReg baseR ++ BitVec.ofInt 6 offset6
  | .rti => 0b1000#4 ++ 0b000000000000#12
  | .not dr sr => 0b1001#4 ++ fieldOfReg dr ++ fieldOfReg sr ++ 0b111111#6
  | .ldi dr pcOffset9 => 0b1010#4 ++ fieldOfReg dr ++ BitVec.ofInt 9 pcOffset9
  | .sti sr pcOffset9 => 0b1011#4 ++ fieldOfReg sr ++ BitVec.ofInt 9 pcOffset9
  | .jmp baseR => 0b1100#4 ++ 0b000#3 ++ fieldOfReg baseR ++ 0b000000#6
  | .reserved13 => 0b1101#4 ++ 0b000000000000#12
  | .lea dr pcOffset9 => 0b1110#4 ++ fieldOfReg dr ++ BitVec.ofInt 9 pcOffset9
  | .trap trapvect8 => 0b1111#4 ++ 0b0000#4 ++ BitVec.ofNat 8 trapvect8

/-- The bytes of an instruction in the order of the memory cells. -/
def encodeBytes (i : Instr) : List Byte := wordBytes (encode i)

end Sys2Proof
end

