-- ==== Sys2Proof/Config.lean ====
section
/-! DEFINITION. What the source fixes for the machine (00_scope.md R6), the policy the spec picks, and the values this model
names for the launch parameters that the spec leaves open (00_scope.md R7). -/

namespace Sys2Proof

/-- `UNIMPL_POLICY` (00_scope.md R7): what opcodes 8 and 13 do. -/
inductive UnimplPolicy where
  /-- They are no-ops (43_control.md R136, R137). -/
  | nop
  /-- They raise `UnimplementedOpcode` (60_exceptions.md R149). -/
  | fault
deriving DecidableEq, Repr

namespace Config

/-- `MEM_WORDS`: memory holds 32768 Words, addresses 0..32767 (00_scope.md R6, 10_state.md R24). -/
abbrev memWords : Nat := 32768

/-- `HALT_VECTOR` (00_scope.md R6). -/
abbrev haltVector : Nat := 0x25

/-- `HALT_SENTINEL`: the PC value the driver reads as halted (00_scope.md R6). -/
abbrev haltSentinel : Word := 0x0000#16

/-- `LINK_REG`: the register JSR, JSRR and JMP write (00_scope.md R6, 10_state.md R21). -/
abbrev linkReg : Fin 8 := 7

/-- What a memory cell that nothing has written reads as: "Memory zero-filled" (70_reset_and_hazards.md R165). -/
abbrev unlistedByte : Byte := 0x00#8

/-- This hardware takes `NOP` (00_scope.md R7, 60_exceptions.md R149). UNVERIFIED: the spec's own decision D4; unsafe
(log entry 7). -/
def unimplPolicy : UnimplPolicy := .nop

/-- `REG_INIT` of `State.reset`. DESIGN CHOICE: the spec leaves it a parameter (10_state.md R36); unsafe (log entry 1).
`State.launch` takes any value. -/
def regInit : Vector Word 8 := Vector.replicate 8 0x0000#16

/-- `ENTRY_PC` of `State.reset`. DESIGN CHOICE: the spec leaves it a parameter; 0x3000 is the one load address of the
source's own worked example (95_test_vectors.md W1); unsafe (log entry 2). `State.launch` takes any value. -/
def entryPC : Word := 0x3000#16

/-- `MEM_INIT` of `State.reset`: zero-filled and nothing loaded. DESIGN CHOICE: the loaded words and the auxiliary routines
are a parameter (10_state.md R36); unsafe (log entry 3). `State.launch` takes any value. -/
def memInit : List Host.Cell := []

end Config
end Sys2Proof
end

