-- ==== Sys2Proof/Machine/State.lean ====
section
/-! DEFINITION. The machine's state as plain data (10_state.md), its launch values, the types that exist inside one step (the
NEXT snapshot and a raised fault), and the two reason types of the host's interface. -/

namespace Sys2Proof.Machine

/-- The condition codes. N, Z and P are "mutually exclusive booleans, never all false, never more than one true", so they
take one of three values (10_state.md R25). -/
inductive CC where
  | neg | zero | pos
deriving DecidableEq, Repr

/-- `ProcessorState` (10_state.md R27). -/
structure ProcessorState where
  /-- The program counter: the address of the next instruction, or the halt sentinel (10_state.md R23). -/
  pc : Word
  /-- The register file R0 to R7 (10_state.md R20). -/
  regs : Vector Word 8
  /-- The condition codes (10_state.md R25). -/
  cc : CC
deriving DecidableEq, Repr

/-- The kind of a memory access (00_scope.md R13). -/
inductive Access where
  | fetch | read | write
deriving DecidableEq, Repr

/-- The kind of a fault (10_state.md R32). -/
inductive FaultKind where
  /-- A memory access at an address of 32768 or more (60_exceptions.md R145). -/
  | outOfBoundsAddress
  /-- Opcode 8 or 13 under the alternative policy only (60_exceptions.md R149). -/
  | unimplementedOpcode
deriving DecidableEq, Repr

/-- The fault record (10_state.md R32, 60_exceptions.md R146). UNVERIFIED: its fields are the spec's decision D8; unsafe
(log entry 10). -/
structure FaultRecord where
  kind : FaultKind
  /-- The 16-bit address that failed the check. -/
  addr : Word
  access : Access
  /-- The address of the faulting instruction. -/
  pc : Word
deriving DecidableEq, Repr

/-- The run state of the Cycle Driver (10_state.md R30). The block holds a fault record exactly "while run = FAULTED" (R32),
so `faulted` carries it. -/
inductive RunState where
  | running
  | halted
  | faulted (record : FaultRecord)
deriving DecidableEq, Repr

/-- The memory array as a list of cells in one canonical form, `Memory.wf`. The Word at address `a` is the cells `2 * a` (its
bits 7..0) and `2 * a + 1` (its bits 15..8). DESIGN CHOICE: no instruction names a byte, so no program can tell; safe (log
entry 4). -/
abbrev Memory := List Host.Cell

/-- The canonical form: cells strictly rising, inside the array of 32768 Words (10_state.md R24), and none equal to what an
unlisted cell reads as. -/
abbrev Memory.wf (m : Memory) : Prop :=
  m.Pairwise (fun c d => c.1 < d.1) ∧ ∀ c ∈ m, c.1 < 2 * Config.memWords ∧ c.2 ≠ Config.unlistedByte

/-- Everything the spec gives the machine between two steps (10_state.md R23 to R32). NEXT equals CURRENT then (R36), so it
is stored once: see `State.nextSnapshot`. -/
structure State where
  /-- The CURRENT snapshot (10_state.md R27). -/
  current : ProcessorState
  /-- The one memory array (10_state.md R24). -/
  mem : Memory
  /-- The run state, with the fault record while it is FAULTED (10_state.md R30, R32). -/
  run : RunState
  /-- The cycle counter, unbounded (10_state.md R31). UNVERIFIED: the spec's decision D12; unsafe past a real counter's
  range (log entry 12). -/
  cycles : Nat
deriving DecidableEq, Repr

/-- The NEXT snapshot as it stands between steps: "After the commit, NEXT is a copy of CURRENT again"
(40_fetch_and_cycle.md R91, 10_state.md R36). DEDUCED: a discarded NEXT reads the same way; safe (log entry 5). -/
def State.nextSnapshot (s : State) : ProcessorState := s.current

/-- The fault record the block holds, if any (10_state.md R32). -/
def State.faultRecord (s : State) : Option FaultRecord :=
  match s.run with
  | .faulted record => some record
  | .running => none
  | .halted => none

/-- The launch state for a value of each launch parameter: `REG_INIT`, `ENTRY_PC` and `MEM_INIT` (10_state.md R36). -/
def State.launch (regInit : Vector Word 8) (entryPC : Word) (memInit : Memory) : State where
  current := { pc := entryPC, regs := regInit, cc := .zero }
  mem := memInit
  run := .running
  cycles := 0

/-- The launch state of the parameter values that `Config` names: registers 0 (log entry 1), PC 0x3000 (log entry 2), nothing
loaded (log entry 3). -/
def State.reset : State := State.launch Config.regInit Config.entryPC Config.memInit

/-! ### Inside one step -/

/-- What a `raise` carries out of the fetch or an executor (00_scope.md R13, R14). -/
structure Raise where
  kind : FaultKind
  addr : Word
  access : Access
deriving DecidableEq, Repr

/-- What an executor builds: the NEXT snapshot and the pending memory write W, at most one (40_fetch_and_cycle.md R85, R90). -/
structure Latch where
  next : ProcessorState
  write : Option (Word × Word)
deriving DecidableEq, Repr

/-! ### The reasons a step of the host's interface can stop -/

/-- Reasons for the machine to stop with a fault and no next state: none. The one fault of the hardware enters the FAULTED run
state, which the spec describes in full (40_fetch_and_cycle.md R92), so it is a next state. No definition raises this; safe. -/
inductive Fault where
deriving DecidableEq, Repr

/-- Reasons for a step to have no meaning. -/
inductive Refusal where
  /-- Raised only by an arm of `exec` whose instruction has no meaning yet; no arm does so now. Safe: the machine stops. -/
  | notModelled (mnemonic : String)
deriving DecidableEq, Repr

/-- The outcome of a step of this machine. -/
abbrev StepOutcome := Host.Outcome State Fault Refusal

end Sys2Proof.Machine
end

