-- ==== Sys2Proof/Machine/Ops.lean ====
section
/-! DEFINITION. The operations every executor is built from: the memory list, the bound check and the two memory primitives
(00_scope.md R13), registers, the NEXT snapshot, commit and the fault path (40_fetch_and_cycle.md R88, R91, R92). -/

namespace Sys2Proof.Machine

/-! ### The memory list -/

/-- The byte of one cell; an unlisted cell reads as `Config.unlistedByte`. -/
def Memory.readByte : Memory → Nat → Byte
  | [], _ => Config.unlistedByte
  | cell :: rest, k => if cell.1 = k then cell.2 else Memory.readByte rest k

/-- Put a cell before the first cell of a higher address. -/
def Memory.insertCell (cell : Host.Cell) : Memory → Memory
  | [] => [cell]
  | head :: rest => if cell.1 < head.1 then cell :: head :: rest else head :: Memory.insertCell cell rest

/-- Drop what the list holds for one address. -/
def Memory.forgetCell (m : Memory) (k : Nat) : Memory := m.filter fun cell => cell.1 != k

/-- Write one cell, keeping the canonical form: the value an unlisted cell reads as is not listed. -/
def Memory.writeByte (m : Memory) (k : Nat) (b : Byte) : Memory :=
  if b = Config.unlistedByte then m.forgetCell k else Memory.insertCell (k, b) (m.forgetCell k)

/-- The cell of the low half of the Word at an address; the high half is the next cell (log entry 4). -/
def lowCell (a : Word) : Nat := 2 * a.toNat

/-- The Word stored at an address (20_memory.md R48). -/
def Memory.readWord (m : Memory) (a : Word) : Word :=
  wordOfBytes (m.readByte (lowCell a)) (m.readByte (lowCell a + 1))

/-- Store all 16 bits of a Word at an address (20_memory.md R48). -/
def Memory.writeWord (m : Memory) (a v : Word) : Memory :=
  (m.writeByte (lowCell a) (v.extractLsb' 0 8)).writeByte (lowCell a + 1) (v.extractLsb' 8 8)

/-! ### The bound check and the memory primitives -/

/-- Addresses 0..32767 are accessible (20_memory.md R46). -/
abbrev InBounds (a : Word) : Prop := a.toNat < Config.memWords

/-- `check(a, kind)` of 00_scope.md R13. The address is a Word, so it is checked after its sum has wrapped (20_memory.md R47;
UNVERIFIED: the spec's decision D6, unsafe, log entry 9). -/
def checkAddress (a : Word) (access : Access) : Except Raise Unit :=
  if InBounds a then .ok () else .error ⟨.outOfBoundsAddress, a, access⟩

/-- `MemRead(a, 1)` (00_scope.md R13), for a fetch or a data read. -/
def Memory.read (m : Memory) (a : Word) (access : Access) : Except Raise Word :=
  match checkAddress a access with
  | .ok () => .ok (m.readWord a)
  | .error raised => .error raised

/-! ### Registers and the program counter -/

/-- General register `r` of a snapshot (10_state.md R20). -/
def ProcessorState.reg (p : ProcessorState) (r : Reg) : Word := p.regs[r.val]

/-- A snapshot with general register `r` replaced; no register is hardwired (10_state.md R20). -/
def ProcessorState.setReg (p : ProcessorState) (r : Reg) (v : Word) : ProcessorState :=
  { p with regs := p.regs.set r.val v }

/-- `x[i]`: register `r` of the CURRENT snapshot (00_scope.md R12). -/
def State.reg (s : State) (r : Reg) : Word := s.current.reg r

/-- `CURRENT.pc`. -/
def State.pc (s : State) : Word := s.current.pc

/-- `PCinc`: the PC after the fetch increment, modulo 2^16 (40_fetch_and_cycle.md R88). It is what `pc` reads as inside an
executor (00_scope.md R12). -/
def State.pcInc (s : State) : Word := s.pc + 1

/-! ### The NEXT snapshot -/

/-- NEXT as it stands when an executor starts: CURRENT with pc replaced by PCinc, and no pending write
(40_fetch_and_cycle.md R85, R88; 10_state.md R27). -/
def State.latch (s : State) : Latch where
  next := { s.current with pc := s.pcInc }
  write := none

/-- `x[r] <- v` (00_scope.md R12). -/
def Latch.setReg (l : Latch) (r : Reg) (v : Word) : Latch := { l with next := l.next.setReg r v }

/-- `pc <- target` (00_scope.md R12). Any Word is a legal target (43_control.md R139). -/
def Latch.setPc (l : Latch) (target : Word) : Latch := { l with next := { l.next with pc := target } }

/-- `MemWrite(a, 1, v)`: check, then register the step's pending write (00_scope.md R13, 20_memory.md R64). -/
def Latch.memWrite (l : Latch) (a v : Word) : Except Raise Latch :=
  match checkAddress a .write with
  | .ok () => .ok { l with write := some (a, v) }
  | .error raised => .error raised

/-! ### Fetch, commit and the fault path -/

/-- `ir := MemRead(CURRENT.pc, 1)` (40_fetch_and_cycle.md R88). -/
def State.fetch (s : State) : Except Raise Word := s.mem.read s.pc .fetch

/-- The pending write as it is performed at the commit (40_fetch_and_cycle.md R91). -/
def Memory.perform (m : Memory) : Option (Word × Word) → Memory
  | none => m
  | some (a, v) => m.writeWord a v

/-- Commit: CURRENT := NEXT, the pending write is performed and the counter rises by 1 (40_fetch_and_cycle.md R91, R93). -/
def State.commit (s : State) (l : Latch) : State :=
  { s with current := l.next, mem := s.mem.perform l.write, cycles := s.cycles + 1 }

/-- Taking a fault: record what was raised and the address of the faulting instruction, and enter FAULTED. NEXT and W are
discarded; CURRENT, memory and the counter stay (40_fetch_and_cycle.md R92, 60_exceptions.md R146, R147). UNVERIFIED: the
record and the uncounted step are the spec's decisions D8 and D22; unsafe (log entry 10). There is no return from a fault
(60_exceptions.md R148, R155). -/
def State.takeFault (s : State) (raised : Raise) : State :=
  { s with run := .faulted { kind := raised.kind, addr := raised.addr, access := raised.access, pc := s.pc } }

/-- The end of an executor: commit what it built, or take the fault it raised (40_fetch_and_cycle.md R85). -/
def State.finish (s : State) : Except Raise Latch → StepOutcome
  | .ok l => .next (s.commit l)
  | .error raised => .next (s.takeFault raised)

/-! ### Placing an instruction for the next fetch -/

/-- The state's PC if the next step would fetch there, else the entry PC: PC 0 halts and a PC of 32768 or more faults before
an instruction runs (40_fetch_and_cycle.md R87, R88). -/
def State.fetchPc (s : State) : Word :=
  if s.pc ≠ Config.haltSentinel ∧ InBounds s.pc then s.pc else Config.entryPC

/-- An instruction Word stored where the next step fetches, as the loader's `load` stores it, in an engine that is RUNNING at
a PC it can fetch from. DESIGN CHOICE: it stands for the load of a program from outside (20_memory.md R60); safe (log entry
6). -/
def State.placeAtFetch (s : State) (ir : Word) : State :=
  { s with
    current := { s.current with pc := s.fetchPc }
    mem := s.mem.writeWord s.fetchPc ir
    run := .running }

end Sys2Proof.Machine
end

