-- ==== Sys2Proof/Machine/Flags.lean ====
section
/-! DEFINITION. The condition codes: `setcc` (41_operate.md R105) and BR's test (43_control.md R130). -/

namespace Sys2Proof.Machine

/-- The flags `setcc` leaves for a 16-bit result (41_operate.md R105). -/
def ccOf (v : Word) : CC :=
  if v = 0x0000#16 then .zero else if v.getLsbD 15 then .neg else .pos

/-- The N flag (10_state.md R25). -/
def CC.n : CC → Bool
  | .neg => true
  | .zero => false
  | .pos => false

/-- The Z flag (10_state.md R25). -/
def CC.z : CC → Bool
  | .neg => false
  | .zero => true
  | .pos => false

/-- The P flag (10_state.md R25). -/
def CC.p : CC → Bool
  | .neg => false
  | .zero => false
  | .pos => true

/-- `setcc(v)` on the NEXT snapshot (41_operate.md R105). -/
def Latch.setCc (l : Latch) (v : Word) : Latch := { l with next := { l.next with cc := ccOf v } }

/-- The result of ADD, AND, NOT and the loads: write DR, and the flags from the same value (10_state.md R26). -/
def Latch.writeResult (l : Latch) (dr : Reg) (v : Word) : Latch := (l.setReg dr v).setCc v

/-- BR's condition: an asserted test flag matches the CURRENT condition code (43_control.md R130). -/
def branchTaken (n z p : Bool) (cc : CC) : Bool := (n && cc.n) || (z && cc.z) || (p && cc.p)

end Sys2Proof.Machine
end

