-- ==== Sys2Proof/Machine/Operands.lean ====
section
/-! DEFINITION. Operand forms and addressing modes (30_encoding.md R69, 42_data_movement.md R115), and the load and store paths
the data movement family shares. -/

namespace Sys2Proof.Machine

/-- The Word of an immediate or offset: its value modulo 2^16, which is `sext_16` of its field (00_scope.md R10). -/
def immediate (v : Int) : Word := BitVec.ofInt 16 v

/-- PC-relative: `pc + sext_16(offset)` with `pc` = PCinc (42_data_movement.md R115). -/
def State.pcRelative (s : State) (offset : Int) : Word := s.pcInc + immediate offset

/-- Base plus offset: `x[BaseR] + sext_16(offset6)`; the base register is not modified (42_data_movement.md R115). -/
def State.baseOffset (s : State) (baseR : Reg) (offset6 : Int) : Word := s.reg baseR + immediate offset6

/-- The pointer that LDI and STI read at the PC-relative address (42_data_movement.md R115). -/
def State.pointer (s : State) (pcOffset9 : Int) : Except Raise Word := s.mem.read (s.pcRelative pcOffset9) .read

/-- Load DR from `ea` and set the flags from the loaded value (42_data_movement.md R116, R118, R120). -/
def State.loadFrom (s : State) (dr : Reg) (ea : Word) : Except Raise Latch :=
  match s.mem.read ea .read with
  | .ok v => .ok (s.latch.writeResult dr v)
  | .error raised => .error raised

/-- Store SR at `ea`; no flag is written (42_data_movement.md R117, R119, R121). -/
def State.storeTo (s : State) (sr : Reg) (ea : Word) : Except Raise Latch := s.latch.memWrite ea (s.reg sr)

/-- Load DR through the pointer: the pointer is read first, so a pointer address out of range is the fault raised
(42_data_movement.md R120, 60_exceptions.md R152). -/
def State.loadIndirect (s : State) (dr : Reg) (pcOffset9 : Int) : Except Raise Latch :=
  match s.pointer pcOffset9 with
  | .ok ea => s.loadFrom dr ea
  | .error raised => .error raised

/-- Store SR through the pointer, in the same order (42_data_movement.md R121, 60_exceptions.md R152). -/
def State.storeIndirect (s : State) (sr : Reg) (pcOffset9 : Int) : Except Raise Latch :=
  match s.pointer pcOffset9 with
  | .ok ea => s.storeTo sr ea
  | .error raised => .error raised

/-- The result of an ALU operation, written to DR with its flags (41_operate.md R105 to R110). -/
def State.operate (s : State) (dr : Reg) (result : Word) : Except Raise Latch := .ok (s.latch.writeResult dr result)

/-- A call or jump that links: R7 receives PCinc and the PC the target, which is computed from CURRENT
(43_control.md R132 to R134). -/
def State.linkAndJump (s : State) (target : Word) : Except Raise Latch :=
  .ok ((s.latch.setReg Config.linkReg s.pcInc).setPc target)

/-- Opcodes 8 and 13 under a policy: a no-op, or the fault of kind UnimplementedOpcode whose address is CURRENT.pc and whose
access is Fetch (43_control.md R136, R137; 60_exceptions.md R149). -/
def State.unimplemented (s : State) : UnimplPolicy → Except Raise Latch
  | .nop => .ok s.latch
  | .fault => .error ⟨.unimplementedOpcode, s.pc, .fetch⟩

end Sys2Proof.Machine
end

