-- ==== Sys2Proof/Machine/Control.lean ====
section
/-! DEFINITION. The control family: BR, JSR, JSRR, JMP, TRAP, RTI and opcode 13 (43_control.md). None accesses memory. -/

namespace Sys2Proof.Machine

/-- BR, conditional branch (43_control.md R130, R131). -/
def execBr (n z p : Bool) (pcOffset9 : Int) (s : State) : StepOutcome :=
  s.finish (.ok (if branchTaken n z p s.current.cc then s.latch.setPc (s.pcRelative pcOffset9) else s.latch))

/-- JSR, PC-relative call (43_control.md R132). -/
def execJsr (pcOffset11 : Int) (s : State) : StepOutcome := s.finish (s.linkAndJump (s.pcRelative pcOffset11))

/-- JSRR, register call: the target is BaseR's CURRENT value, R7 included (43_control.md R133, 90_conflicts.md C2). -/
def execJsrr (baseR : Reg) (s : State) : StepOutcome := s.finish (s.linkAndJump (s.reg baseR))

/-- JMP, register jump, which writes R7 in this core (43_control.md R134, 90_conflicts.md C2). -/
def execJmp (baseR : Reg) (s : State) : StepOutcome := s.finish (s.linkAndJump (s.reg baseR))

/-- TRAP: vector 0x25 sets the PC to the sentinel, every other vector is a no-op; nothing else is written
(43_control.md R135). -/
def execTrap (trapvect8 : Nat) (s : State) : StepOutcome :=
  s.finish (.ok (if trapvect8 = Config.haltVector then s.latch.setPc Config.haltSentinel else s.latch))

/-- RTI, opcode 8 (43_control.md R136; UNVERIFIED: the spec's decision D4, unsafe, log entry 7). -/
def execRti (s : State) : StepOutcome := s.finish (s.unimplemented Config.unimplPolicy)

/-- Opcode 13 (43_control.md R137; UNVERIFIED: the spec's decision D4, unsafe, log entry 7). -/
def execReserved13 (s : State) : StepOutcome := s.finish (s.unimplemented Config.unimplPolicy)

end Sys2Proof.Machine
end

