-- ==== Sys2Proof/Machine/DataMovement.lean ====
section
/-! DEFINITION. The data movement family: LD, ST, LDR, STR, LDI, STI and LEA (42_data_movement.md). NEXT.pc is PCinc. -/

namespace Sys2Proof.Machine

/-- LD, PC-relative load (42_data_movement.md R116). -/
def execLd (dr : Reg) (pcOffset9 : Int) (s : State) : StepOutcome := s.finish (s.loadFrom dr (s.pcRelative pcOffset9))

/-- ST, PC-relative store (42_data_movement.md R117). -/
def execSt (sr : Reg) (pcOffset9 : Int) (s : State) : StepOutcome := s.finish (s.storeTo sr (s.pcRelative pcOffset9))

/-- LDR, base plus offset load (42_data_movement.md R118). -/
def execLdr (dr baseR : Reg) (offset6 : Int) (s : State) : StepOutcome :=
  s.finish (s.loadFrom dr (s.baseOffset baseR offset6))

/-- STR, base plus offset store (42_data_movement.md R119). -/
def execStr (sr baseR : Reg) (offset6 : Int) (s : State) : StepOutcome :=
  s.finish (s.storeTo sr (s.baseOffset baseR offset6))

/-- LDI, indirect load (42_data_movement.md R120). -/
def execLdi (dr : Reg) (pcOffset9 : Int) (s : State) : StepOutcome := s.finish (s.loadIndirect dr pcOffset9)

/-- STI, indirect store (42_data_movement.md R121). -/
def execSti (sr : Reg) (pcOffset9 : Int) (s : State) : StepOutcome := s.finish (s.storeIndirect sr pcOffset9)

/-- LEA: the PC-relative address as a value, no access and no flags (42_data_movement.md R122). -/
def execLea (dr : Reg) (pcOffset9 : Int) (s : State) : StepOutcome :=
  s.finish (.ok (s.latch.setReg dr (s.pcRelative pcOffset9)))

end Sys2Proof.Machine
end

