-- ==== Sys2Proof/Machine/Operate.lean ====
section
/-! DEFINITION. The operate family: ADD, AND and NOT (41_operate.md). NEXT.pc is PCinc and no exception is raised. -/

namespace Sys2Proof.Machine

/-- ADD, register form (41_operate.md R106). -/
def execAddReg (dr sr1 sr2 : Reg) (s : State) : StepOutcome := s.finish (s.operate dr (s.reg sr1 + s.reg sr2))

/-- ADD, immediate form (41_operate.md R107). -/
def execAddImm (dr sr1 : Reg) (imm5 : Int) (s : State) : StepOutcome :=
  s.finish (s.operate dr (s.reg sr1 + immediate imm5))

/-- AND, register form (41_operate.md R108). -/
def execAndReg (dr sr1 sr2 : Reg) (s : State) : StepOutcome := s.finish (s.operate dr (s.reg sr1 &&& s.reg sr2))

/-- AND, immediate form (41_operate.md R109). -/
def execAndImm (dr sr1 : Reg) (imm5 : Int) (s : State) : StepOutcome :=
  s.finish (s.operate dr (s.reg sr1 &&& immediate imm5))

/-- NOT (41_operate.md R110). -/
def execNot (dr sr : Reg) (s : State) : StepOutcome := s.finish (s.operate dr (~~~ s.reg sr))

end Sys2Proof.Machine
end

