-- ==== Sys2Proof/Machine/Dispatch.lean ====
section
/-! DEFINITION. Dispatch to the single executor of an instruction (40_fetch_and_cycle.md R89, R90): its effect on a state whose
PC is the address of the instruction, up to and including the commit or the fault path. -/

namespace Sys2Proof.Machine

def exec (i : Instr) (s : State) : Host.Outcome State Fault Refusal :=
  match i with
  | .br n z p pcOffset9 => Sys2Proof.Machine.execBr n z p pcOffset9 s
  | .addReg dr sr1 sr2 => Sys2Proof.Machine.execAddReg dr sr1 sr2 s
  | .addImm dr sr1 imm5 => Sys2Proof.Machine.execAddImm dr sr1 imm5 s
  | .ld dr pcOffset9 => Sys2Proof.Machine.execLd dr pcOffset9 s
  | .st sr pcOffset9 => Sys2Proof.Machine.execSt sr pcOffset9 s
  | .jsr pcOffset11 => Sys2Proof.Machine.execJsr pcOffset11 s
  | .jsrr baseR => Sys2Proof.Machine.execJsrr baseR s
  | .andReg dr sr1 sr2 => Sys2Proof.Machine.execAndReg dr sr1 sr2 s
  | .andImm dr sr1 imm5 => Sys2Proof.Machine.execAndImm dr sr1 imm5 s
  | .ldr dr baseR offset6 => Sys2Proof.Machine.execLdr dr baseR offset6 s
  | .str sr baseR offset6 => Sys2Proof.Machine.execStr sr baseR offset6 s
  | .rti => Sys2Proof.Machine.execRti s
  | .not dr sr => Sys2Proof.Machine.execNot dr sr s
  | .ldi dr pcOffset9 => Sys2Proof.Machine.execLdi dr pcOffset9 s
  | .sti sr pcOffset9 => Sys2Proof.Machine.execSti sr pcOffset9 s
  | .jmp baseR => Sys2Proof.Machine.execJmp baseR s
  | .reserved13 => Sys2Proof.Machine.execReserved13 s
  | .lea dr pcOffset9 => Sys2Proof.Machine.execLea dr pcOffset9 s
  | .trap trapvect8 => Sys2Proof.Machine.execTrap trapvect8 s

end Sys2Proof.Machine
end

