-- ==== Sys2Proof/Machine/Cycle.lean ====
section
/-! DEFINITION. The Cycle Driver: one call of `step()` (40_fetch_and_cycle.md R85). -/

namespace Sys2Proof.Machine

/-- Fetch, decode and execute; a fetch out of bounds takes the fault path (40_fetch_and_cycle.md R88 to R92). -/
def State.fetchAndExecute (s : State) : StepOutcome :=
  match s.fetch with
  | .ok ir => exec (decode ir) s
  | .error raised => .next (s.takeFault raised)

/-- The halting step changes only the run state (40_fetch_and_cycle.md R87). UNVERIFIED: that it does not count is the spec's
decision D10; unsafe (log entry 11). -/
def State.halt (s : State) : State := { s with run := .halted }

/-- The step, its checks in the order of 60_exceptions.md R152: the run state (R86), the halt sentinel (R87), then the fetch.
In HALTED and FAULTED it changes nothing, as the spec's no-op (R86; UNVERIFIED for FAULTED: the spec's decision D9; safe, log
entry 10). -/
def State.cycle (s : State) : StepOutcome :=
  match s.run with
  | .halted => .next s
  | .faulted _ => .next s
  | .running => if s.pc = Config.haltSentinel then .next s.halt else s.fetchAndExecute

end Sys2Proof.Machine
end

