-- ==== Sys2Proof/Machine/Step.lean ====
section
/-! DEFINITION. The host's names for one step and for an instruction placed where the next step fetches. -/

namespace Sys2Proof.Machine

/-- One call of `step()` (40_fetch_and_cycle.md R85), on the state; the result it returns is `State.result`
(Machine/HostInterface.lean). -/
def step (s : State) : Host.Outcome State Fault Refusal := s.cycle

/-- `s` with the instruction whose bits are the low `nbits` of `w` stored where the next step fetches it, in an engine that
can fetch it. It stands for a program's load (log entry 6). -/
def State.withFetchWord (s : State) (nbits w : Nat) : State := s.placeAtFetch (BitVec.ofNat 16 (w % 2 ^ nbits))

end Sys2Proof.Machine
end

