-- ==== Sys2Proof/Machine/HostInterface.lean ====
section
/-! DEFINITION. The commands a host drives the block with (40_fetch_and_cycle.md R96 to R103, 20_memory.md R60 to R63) and the
launch of an engine from its images (70_reset_and_hazards.md R165). Each acts between steps on a committed state. -/

namespace Sys2Proof.Machine

/-! ### step, and what it reports -/

/-- `StepResult` (40_fetch_and_cycle.md R94). -/
inductive StepResult where
  | ok
  | halted
  | faulted (record : FaultRecord)
deriving DecidableEq, Repr

/-- What a call of `step()` that left this state reports: `Ok` after a commit, `Halted` from R86 or R87, `Faulted` with the
stored record from R86 or R92 (40_fetch_and_cycle.md R94). -/
def State.result (s : State) : StepResult :=
  match s.run with
  | .running => .ok
  | .halted => .halted
  | .faulted record => .faulted record

/-- `step()`: the state after the step and the result the host receives (40_fetch_and_cycle.md R85, R97). -/
def State.stepCommand (s : State) : Host.Outcome (State × StepResult) Fault Refusal :=
  match step s with
  | .next t => .next (t, t.result)
  | .fault reason => .fault reason
  | .refused reason => .refused reason

/-- `run_for(n)`: `step()` up to `n` times, stopping at the first result that is not `Ok`; the result of the last call, or
`Ok` if `n = 0` (40_fetch_and_cycle.md R98; UNVERIFIED: the stop at a fault is the spec's decision D13, safe, log entry 13). -/
def State.runFor : Nat → State → Host.Outcome (State × StepResult) Fault Refusal
  | 0, s => .next (s, .ok)
  | n + 1, s =>
    match s.stepCommand with
    | .next (t, .ok) => State.runFor n t
    | .next (t, .halted) => .next (t, .halted)
    | .next (t, .faulted record) => .next (t, .faulted record)
    | .fault reason => .fault reason
    | .refused reason => .refused reason

/-- `run_to_completion()` returns `result` in state `t`: some number of steps ends in `Halted` or `Faulted`. It need not hold of
any `t`, since the command may not return (40_fetch_and_cycle.md R99). -/
def State.RunsToCompletion (s t : State) (result : StepResult) : Prop :=
  ∃ n, s.runFor n = .next (t, result) ∧ result ≠ .ok

/-- `is_halted()`: the run state, not the PC; false while FAULTED (40_fetch_and_cycle.md R100; UNVERIFIED: the spec's decision
D11, unsafe before the halting step, log entry 11). -/
def State.isHalted (s : State) : Bool := decide (s.run = .halted)

/-- `cycle_count()` (40_fetch_and_cycle.md R101). -/
def State.cycleCount (s : State) : Nat := s.cycles

/-- `get_state()`: a copy of CURRENT (10_state.md R29). -/
def State.getState (s : State) : ProcessorState := s.current

/-! ### Memory commands -/

/-- Why a host command is refused. -/
inductive HostError where
  /-- The address is 32768 or more (20_memory.md R62). -/
  | addressOutOfRange (address : Nat)
deriving DecidableEq, Repr

/-- The address a host command names, refused when it is 32768 or more (20_memory.md R62; UNVERIFIED: the spec's decision D15,
safe, log entry 13). -/
def hostAddress (address : Nat) : Except HostError Word :=
  if address < Config.memWords then .ok (BitVec.ofNat 16 address) else .error (.addressOutOfRange address)

/-- `get_memory(address)` (20_memory.md R61). -/
def State.getMemory (s : State) (address : Nat) : Except HostError Word :=
  match hostAddress address with
  | .ok a => .ok (s.mem.readWord a)
  | .error reason => .error reason

/-- `set_memory(address, word)` (20_memory.md R61). -/
def State.setMemory (s : State) (address : Nat) (word : Word) : Except HostError State :=
  match hostAddress address with
  | .ok a => .ok { s with mem := s.mem.writeWord a word }
  | .error reason => .error reason

/-- `load(address, word)`: one word written to memory (20_memory.md R60). DESIGN CHOICE: the rule places it before the first
step, and the model does not refuse it later; safe (log entry 14). -/
def State.load (s : State) (address : Nat) (word : Word) : Except HostError State := s.setMemory address word

/-! ### Launch -/

/-- A program image: the load address, then the contiguous words (20_memory.md R60). -/
structure Image where
  loadAddress : Word
  words : List Word
deriving DecidableEq, Repr

/-- `load(address + i, w_i)` for each word in order (20_memory.md R60). DESIGN CHOICE: the spec does not say what the loader does
when one `load` is refused part way; the whole sequence is refused with that error and the words loaded before it are dropped;
unsafe for a claim about the loader's answer (log entry 17). -/
def State.loadWords (s : State) (address : Nat) : List Word → Except HostError State
  | [] => .ok s
  | word :: rest =>
    match s.load address word with
    | .ok t => t.loadWords (address + 1) rest
    | .error reason => .error reason

/-- The images loaded in order, all of them or none (DESIGN CHOICE, log entry 17). -/
def State.loadImages (s : State) : List Image → Except HostError State
  | [] => .ok s
  | image :: rest =>
    match s.loadWords image.loadAddress.toNat image.words with
    | .ok t => t.loadImages rest
    | .error reason => .error reason

/-- A new engine: memory zero-filled, the images loaded in order (the program first, then any auxiliary routines), the PC at
the load address of the first image (70_reset_and_hazards.md R165). An image that is refused part way gives no engine (DESIGN
CHOICE, log entry 17). -/
def launchImages (regInit : Vector Word 8) (program : Image) (auxiliary : List Image) : Except HostError State :=
  (State.launch regInit program.loadAddress []).loadImages (program :: auxiliary)

end Sys2Proof.Machine
end

