-- ==== Sys2Proof/Safety.lean ====
section
/-! DEFINITION. What claims about runs speak of: the invariant of the machine's state, reaching a state, and a run that meets no
fault. -/

namespace Sys2Proof.Machine

/-- What a fault record says about the state that holds it (40_fetch_and_cycle.md R92, 60_exceptions.md R145, R146, R152): it
names an out of bounds address and the PC of the state, the halt check did not apply, and the access is the fetch exactly when
the PC itself is out of bounds. -/
structure FaultRecord.Explains (record : FaultRecord) (p : ProcessorState) : Prop where
  kind : record.kind = .outOfBoundsAddress
  addr : ¬ InBounds record.addr
  pc : record.pc = p.pc
  notSentinel : record.pc ≠ Config.haltSentinel
  fetch : record.access = .fetch → record.addr = record.pc
  data : record.access ≠ .fetch → InBounds record.pc

/-- The invariant: memory is in its canonical form, HALTED stands at the sentinel (40_fetch_and_cycle.md R87), and FAULTED
holds a record that explains the fault. -/
structure State.Inv (s : State) : Prop where
  memory : s.mem.wf
  halted : s.run = .halted → s.pc = Config.haltSentinel
  faulted : ∀ record, s.run = .faulted record → record.Explains s.current

/-- `n` steps lead from `s` to `t`. -/
def State.ReachesIn (s : State) (n : Nat) (t : State) : Prop := core.run n s = .next t

/-- Some number of steps leads from `s` to `t`. -/
def State.Reaches (s t : State) : Prop := ∃ n, s.ReachesIn n t

/-- The state is FAULTED. -/
def State.IsFaulted (s : State) : Prop := ∃ record, s.run = .faulted record

/-- A safe run: no state it reaches is FAULTED. -/
def State.SafeRun (s : State) : Prop := ∀ t, s.Reaches t → ¬ t.IsFaulted

end Sys2Proof.Machine
end

