-- ==== Sys2Proof/Certificates/Slice0/Obligations.lean ====
section
/-! DEFINITION. The statements about the machine, each from the rules of spec/ its docstring names, and the words they are
said in: the fields of an instruction Word, the flag table, the frames and the tables of the spec over instructions. -/

namespace Sys2Proof.Claims

open Sys2Proof.Machine

/-! ### The fields of an instruction Word, at the places 30_encoding.md R66 to R69 give -/

/-- `ir[15:12]`. -/
abbrev opcodeOf (ir : Word) : BitVec 4 := ir.extractLsb' 12 4
/-- `ir[11:9]`: DR, and SR of the stores. -/
abbrev reg11 (ir : Word) : Reg := (ir.extractLsb' 9 3).toFin
/-- `ir[8:6]`: SR1, BaseR, and SR of NOT. -/
abbrev reg8 (ir : Word) : Reg := (ir.extractLsb' 6 3).toFin
/-- `ir[2:0]`: SR2. -/
abbrev reg2 (ir : Word) : Reg := (ir.extractLsb' 0 3).toFin
/-- `ir[4:0]`. -/
abbrev imm5Of (ir : Word) : BitVec 5 := ir.extractLsb' 0 5
/-- `ir[5:0]`. -/
abbrev offset6Of (ir : Word) : BitVec 6 := ir.extractLsb' 0 6
/-- `ir[8:0]`. -/
abbrev offset9Of (ir : Word) : BitVec 9 := ir.extractLsb' 0 9
/-- `ir[10:0]`. -/
abbrev offset11Of (ir : Word) : BitVec 11 := ir.extractLsb' 0 11
/-- `ir[7:0]`. -/
abbrev vector8Of (ir : Word) : BitVec 8 := ir.extractLsb' 0 8
/-- `sext_16` of a field (00_scope.md R10). -/
abbrev sext16 {n : Nat} (f : BitVec n) : Word := f.signExtend 16

/-- The rows of spec/opcode_table.json as mask and match. -/
abbrev tableRows : List (Word × Word) :=
  [(0xF000#16, 0x0000#16), (0xF020#16, 0x1000#16), (0xF020#16, 0x1020#16), (0xF000#16, 0x2000#16), (0xF000#16, 0x3000#16),
   (0xF800#16, 0x4800#16), (0xF800#16, 0x4000#16), (0xF020#16, 0x5000#16), (0xF020#16, 0x5020#16), (0xF000#16, 0x6000#16)] ++
  [(0xF000#16, 0x7000#16), (0xF000#16, 0x8000#16), (0xF000#16, 0x9000#16), (0xF000#16, 0xA000#16), (0xF000#16, 0xB000#16),
   (0xF000#16, 0xC000#16), (0xF000#16, 0xD000#16), (0xF000#16, 0xE000#16), (0xF000#16, 0xF000#16)]

/-- The row of an instruction in spec/opcode_table.json. -/
def rowOf : Instr → Word × Word
  | .br _ _ _ _ => (0xF000#16, 0x0000#16)
  | .addReg _ _ _ => (0xF020#16, 0x1000#16)
  | .addImm _ _ _ => (0xF020#16, 0x1020#16)
  | .ld _ _ => (0xF000#16, 0x2000#16)
  | .st _ _ => (0xF000#16, 0x3000#16)
  | .jsr _ => (0xF800#16, 0x4800#16)
  | .jsrr _ => (0xF800#16, 0x4000#16)
  | .andReg _ _ _ => (0xF020#16, 0x5000#16)
  | .andImm _ _ _ => (0xF020#16, 0x5020#16)
  | .ldr _ _ _ => (0xF000#16, 0x6000#16)
  | .str _ _ _ => (0xF000#16, 0x7000#16)
  | .rti => (0xF000#16, 0x8000#16)
  | .not _ _ => (0xF000#16, 0x9000#16)
  | .ldi _ _ => (0xF000#16, 0xA000#16)
  | .sti _ _ => (0xF000#16, 0xB000#16)
  | .jmp _ => (0xF000#16, 0xC000#16)
  | .reserved13 => (0xF000#16, 0xD000#16)
  | .lea _ _ => (0xF000#16, 0xE000#16)
  | .trap _ => (0xF000#16, 0xF000#16)

/-- The bits of a Word that its instruction does not ignore (30_encoding.md R70, R72). -/
def usedBits : Instr → Word
  | .br _ _ _ _ => 0xFFFF#16
  | .addReg _ _ _ => 0xFFE7#16
  | .addImm _ _ _ => 0xFFFF#16
  | .ld _ _ => 0xFFFF#16
  | .st _ _ => 0xFFFF#16
  | .jsr _ => 0xFFFF#16
  | .jsrr _ => 0xF9C0#16
  | .andReg _ _ _ => 0xFFE7#16
  | .andImm _ _ _ => 0xFFFF#16
  | .ldr _ _ _ => 0xFFFF#16
  | .str _ _ _ => 0xFFFF#16
  | .rti => 0xF000#16
  | .not _ _ => 0xFFC0#16
  | .ldi _ _ => 0xFFFF#16
  | .sti _ _ => 0xFFFF#16
  | .jmp _ => 0xF1C0#16
  | .reserved13 => 0xF000#16
  | .lea _ _ => 0xFFFF#16
  | .trap _ => 0xF0FF#16

/-! ### Flags and frames -/

/-- The table of 41_operate.md R105: the three flags for a result. -/
def FlagsFor (v : Word) (cc : CC) : Prop :=
  (v = 0x0000#16 → cc.n = false ∧ cc.z = true ∧ cc.p = false) ∧
  (v ≠ 0x0000#16 → v.getLsbD 15 = false → cc.n = false ∧ cc.z = false ∧ cc.p = true) ∧
  (v.getLsbD 15 = true → cc.n = true ∧ cc.z = false ∧ cc.p = false)

/-- The three flags are unchanged. -/
def SameFlags (s t : State) : Prop :=
  t.current.cc.n = s.current.cc.n ∧ t.current.cc.z = s.current.cc.z ∧ t.current.cc.p = s.current.cc.p

/-- Every general register is unchanged. -/
def SameRegs (s t : State) : Prop := ∀ r, t.reg r = s.reg r

/-- Every general register but one is unchanged. -/
def SameRegsBut (dr : Reg) (s t : State) : Prop := ∀ r, r ≠ dr → t.reg r = s.reg r

/-- Every byte of memory is unchanged. -/
def SameBytes (s t : State) : Prop := ∀ k, t.mem.readByte k = s.mem.readByte k

/-- Every byte of memory is unchanged but the two of the Word at address `a`. -/
def SameBytesBut (a : Word) (s t : State) : Prop :=
  ∀ k, k ≠ 2 * a.toNat → k ≠ 2 * a.toNat + 1 → t.mem.readByte k = s.mem.readByte k

/-- The step counts once and the run state, with any fault record, is unchanged (40_fetch_and_cycle.md R93). -/
def CountsOnce (s t : State) : Prop := t.run = s.run ∧ t.cycles = s.cycles + 1

/-- DR receives `v`, the flags follow it, the PC is PCinc, and nothing else changes but the count. -/
def WritesResult (dr : Reg) (v : Word) (s t : State) : Prop :=
  t.reg dr = v ∧ FlagsFor v t.current.cc ∧ t.pc = s.pc + 1 ∧ SameRegsBut dr s t ∧ SameBytes s t ∧ CountsOnce s t

/-- The Word at `a` becomes `v`, the PC is PCinc, and nothing else changes but the count. -/
def StoresWord (a v : Word) (s t : State) : Prop :=
  t.mem.readWord a = v ∧ SameBytesBut a s t ∧ t.pc = s.pc + 1 ∧ SameRegs s t ∧ SameFlags s t ∧ CountsOnce s t

/-- R7 receives PCinc, the PC becomes `target`, and nothing else changes but the count. -/
def LinksAndJumps (target : Word) (s t : State) : Prop :=
  t.reg 7 = s.pc + 1 ∧ t.pc = target ∧ SameRegsBut 7 s t ∧ SameFlags s t ∧ SameBytes s t ∧ CountsOnce s t

/-- The PC becomes `target` and nothing else changes but the count. -/
def MovesPc (target : Word) (s t : State) : Prop :=
  t.pc = target ∧ SameRegs s t ∧ SameFlags s t ∧ SameBytes s t ∧ CountsOnce s t

/-- The state with an `OutOfBoundsAddress(a, access)` fault of the instruction at its PC taken, all else as it was. -/
def faultedAt (s : State) (a : Word) (access : Access) : State :=
  { s with run := .faulted { kind := .outOfBoundsAddress, addr := a, access := access, pc := s.pc } }

/-! ### Tables of the spec over instructions -/

/-- The register an instruction writes (10_state.md R22). -/
def registerWritten : Instr → Option Reg
  | .br _ _ _ _ => none
  | .addReg dr _ _ => some dr
  | .addImm dr _ _ => some dr
  | .ld dr _ => some dr
  | .st _ _ => none
  | .jsr _ => some 7
  | .jsrr _ => some 7
  | .andReg dr _ _ => some dr
  | .andImm dr _ _ => some dr
  | .ldr dr _ _ => some dr
  | .str _ _ _ => none
  | .rti => none
  | .not dr _ => some dr
  | .ldi dr _ => some dr
  | .sti _ _ => none
  | .jmp _ => some 7
  | .reserved13 => none
  | .lea dr _ => some dr
  | .trap _ => none

/-- The registers an instruction reads (10_state.md R22). -/
def registersRead : Instr → List Reg
  | .br _ _ _ _ => []
  | .addReg _ sr1 sr2 => [sr1, sr2]
  | .addImm _ sr1 _ => [sr1]
  | .ld _ _ => []
  | .st sr _ => [sr]
  | .jsr _ => []
  | .jsrr baseR => [baseR]
  | .andReg _ sr1 sr2 => [sr1, sr2]
  | .andImm _ sr1 _ => [sr1]
  | .ldr _ baseR _ => [baseR]
  | .str sr baseR _ => [sr, baseR]
  | .rti => []
  | .not _ sr => [sr]
  | .ldi _ _ => []
  | .sti sr _ => [sr]
  | .jmp baseR => [baseR]
  | .reserved13 => []
  | .lea _ _ => []
  | .trap _ => []

/-- The instructions that call `setcc`: ADD, AND, NOT, LD, LDR and LDI (10_state.md R26). -/
def callsSetcc : Instr → Bool
  | .br _ _ _ _ => false
  | .addReg _ _ _ => true
  | .addImm _ _ _ => true
  | .ld _ _ => true
  | .st _ _ => false
  | .jsr _ => false
  | .jsrr _ => false
  | .andReg _ _ _ => true
  | .andImm _ _ _ => true
  | .ldr _ _ _ => true
  | .str _ _ _ => false
  | .rti => false
  | .not _ _ => true
  | .ldi _ _ => true
  | .sti _ _ => false
  | .jmp _ => false
  | .reserved13 => false
  | .lea _ _ => false
  | .trap _ => false

/-- The instruction is BR. -/
def isBranch : Instr → Bool
  | .br _ _ _ _ => true
  | _ => false

/-- The data accesses of an instruction in order (20_memory.md R51, 60_exceptions.md R145). -/
def dataAccesses : Instr → State → List (Word × Access)
  | .ld _ o, s => [(s.pcRelative o, .read)]
  | .st _ o, s => [(s.pcRelative o, .write)]
  | .ldr _ b o, s => [(s.baseOffset b o, .read)]
  | .str _ b o, s => [(s.baseOffset b o, .write)]
  | .ldi _ o, s => [(s.pcRelative o, .read), (s.mem.readWord (s.pcRelative o), .read)]
  | .sti _ o, s => [(s.pcRelative o, .read), (s.mem.readWord (s.pcRelative o), .write)]
  | _, _ => []

/-- The first access whose address is 32768 or more. -/
def firstOutOfBounds (accesses : List (Word × Access)) : Option (Word × Access) :=
  accesses.find? fun access => decide (32768 ≤ access.1.toNat)

/-- The address a storing instruction stores to and the register it stores (20_memory.md R51). -/
def storeOf : Instr → State → Option (Word × Reg)
  | .st sr o, s => some (s.pcRelative o, sr)
  | .str sr b o, s => some (s.baseOffset b o, sr)
  | .sti sr o, s => some (s.mem.readWord (s.pcRelative o), sr)
  | _, _ => none

/-- The table of 40_fetch_and_cycle.md R95, from the instruction Word itself. -/
def nextPc (ir : Word) (s : State) : Word :=
  if opcodeOf ir = 0x0#4 then
    if (ir.getLsbD 11 && s.current.cc.n) || (ir.getLsbD 10 && s.current.cc.z) || (ir.getLsbD 9 && s.current.cc.p) then
      s.pc + 1 + sext16 (offset9Of ir)
    else s.pc + 1
  else if opcodeOf ir = 0x4#4 then
    if ir.getLsbD 11 then s.pc + 1 + sext16 (offset11Of ir) else s.reg (reg8 ir)
  else if opcodeOf ir = 0xC#4 then s.reg (reg8 ir)
  else if opcodeOf ir = 0xF#4 ∧ vector8Of ir = 0x25#8 then 0x0000#16
  else s.pc + 1

/-- The step executes an instruction: RUNNING, past the halt check, at a PC inside the array. -/
def Executes (s : State) : Prop := s.run = .running ∧ s.pc ≠ 0x0000#16 ∧ s.pc.toNat < 32768

end Sys2Proof.Claims

open Sys2Proof Sys2Proof.Machine Sys2Proof.Claims

/-! ### Launch and the host's memory commands -/

/-- 10_state.md R36 for every value of the three launch parameters. Its rows for the counter and the fault are the spec's
inferences, so this rests on them. -/
def Obligations.LaunchHoldsTheStatedValues : Prop :=
  ∀ (regInit : Vector Word 8) (entryPC : Word) (memInit : Memory),
    let s := State.launch regInit entryPC memInit
    (∀ r : Reg, s.reg r = regInit[r]) ∧ s.pc = entryPC ∧ s.mem = memInit ∧
    s.current.cc.n = false ∧ s.current.cc.z = true ∧ s.current.cc.p = false ∧
    s.run = .running ∧ s.cycles = 0 ∧ s.faultRecord = none ∧ s.nextSnapshot = s.getState

/-- The reset state meets the invariant. It rests on the model's choice of launch values (log entries 1 to 3). -/
def Obligations.ResetMeetsTheInvariant : Prop := State.reset.Inv

/-- A launch from one image (70_reset_and_hazards.md R165; the spec's decision D3): the words stand at the load address and
after it, every other Word is zero, and the state is the launch state at that address. An image that leaves the array is
refused as a whole: that a `load` out of range is refused is the spec's decision D15, and that no engine comes of the image is
the model's choice (log entry 17). -/
def Obligations.LaunchPlacesTheImage : Prop :=
  ∀ (regInit : Vector Word 8) (A : Word) (words : List Word),
    (A.toNat + words.length ≤ 32768 →
      ∃ s, launchImages regInit ⟨A, words⟩ [] = .ok s ∧ s.mem.wf ∧
        (∀ (i : Nat) (h : i < words.length), s.mem.readWord (A + BitVec.ofNat 16 i) = words[i]) ∧
        (∀ a : Word, (a.toNat < A.toNat ∨ A.toNat + words.length ≤ a.toNat) → s.mem.readWord a = 0x0000#16) ∧
        s.pc = A ∧ (∀ r : Reg, s.reg r = regInit[r]) ∧ s.current.cc = .zero ∧ s.run = .running ∧ s.cycles = 0) ∧
    (words ≠ [] → 32768 < A.toNat + words.length → ∃ reason, launchImages regInit ⟨A, words⟩ [] = .error reason)

/-- 20_memory.md R61: `get_memory` answers the Word and `set_memory` writes it, and neither changes the counter, the run state
or ProcessorState; the write leaves every other Word alone. -/
def Obligations.HostMemoryCommandsReadAndWriteOneWord : Prop :=
  ∀ (s : State) (address : Nat) (word : Word), address < 32768 →
    s.getMemory address = .ok (s.mem.readWord (BitVec.ofNat 16 address)) ∧
    ∃ t, s.setMemory address word = .ok t ∧ t.getMemory address = .ok word ∧
      (∀ other, other < 32768 → other ≠ address → t.getMemory other = s.getMemory other) ∧
      t.cycleCount = s.cycleCount ∧ t.run = s.run ∧ t.getState = s.getState

/-- 20_memory.md R62, the spec's decision D15: a host address of 32768 or more is refused, so no state comes of it. -/
def Obligations.HostAddressesOutOfRangeAreRefused : Prop :=
  ∀ (s : State) (address : Nat) (word : Word), 32768 ≤ address →
    s.getMemory address = .error (.addressOutOfRange address) ∧
    s.setMemory address word = .error (.addressOutOfRange address) ∧
    s.load address word = .error (.addressOutOfRange address)

/-- In canonical form, memories that read the same at every address of the array are the same list. It is a property of the
model's representation (log entry 4). -/
def Obligations.EqualReadsMeanEqualMemories : Prop :=
  ∀ m m' : Memory, m.wf → m'.wf → (∀ a : Word, a.toNat < 32768 → m.readWord a = m'.readWord a) → m = m'

/-! ### The codec, the decoder and the encoder -/

/-- 00_scope.md R10: the zero-extended field is its unsigned value; the sign-extended field is that value, less 2^width modulo
2^16 if its top bit is 1; they are `zext_16` and `sext_16` of the field. -/
def Obligations.ExtractFieldIsTheValueOfTheField : Prop :=
  ∀ (w : Word) (lo hi : Nat), lo ≤ hi → hi ≤ 15 →
    let f := w.toNat / 2 ^ lo % 2 ^ (hi - lo + 1)
    (extractField w lo hi false).toNat = f ∧
    (w.getLsbD hi = false → (extractField w lo hi true).toNat = f) ∧
    (w.getLsbD hi = true → (extractField w lo hi true).toNat = (f + 65536 - 2 ^ (hi - lo + 1)) % 65536) ∧
    extractField w lo hi false = (w.extractLsb' lo (hi - lo + 1)).setWidth 16 ∧
    extractField w lo hi true = sext16 (w.extractLsb' lo (hi - lo + 1))

/-- 00_scope.md R11. -/
def Obligations.BitArrayHoldsEachBit : Prop := ∀ (w : Word) (i : Fin 16), (toBitArray w)[i] = w.getLsbD i

/-- 30_encoding.md R73, which carries the spec's decision D4: every Word matches exactly one row of the opcode table, and that
row is the one of the instruction it decodes to. -/
def Obligations.EveryWordMatchesExactlyOneRow : Prop :=
  ∀ w : Word, rowOf (decode w) ∈ tableRows ∧ ∀ row ∈ tableRows, w &&& row.1 = row.2 ↔ row = rowOf (decode w)

/-- Decoding the encoding of a well-formed instruction gives it back, from the Word and from its bytes. -/
def Obligations.DecodeInvertsEncode : Prop :=
  ∀ i : Instr, i.WellFormed →
    decode (encode i) = i ∧ ∀ rest : List Byte, decodeBytes (encodeBytes i ++ rest) = .ok (i, rest)

/-- Every Word decodes to a well-formed instruction, and encoding that gives the Word back in every bit it does not ignore. -/
def Obligations.EncodeRestoresTheUsedBits : Prop :=
  ∀ w : Word, (decode w).WellFormed ∧ encode (decode w) &&& usedBits (decode w) = w &&& usedBits (decode w)

/-- Words the spec writes out with their instruction (41_operate.md, 42_data_movement.md and 43_control.md, examples). -/
def Obligations.ExampleWordsDecode : Prop :=
  decode 0x1642#16 = .addReg 3 1 2 ∧ decode 0x103F#16 = .addImm 0 0 (-1) ∧ decode 0x947F#16 = .not 2 1 ∧
  decode 0x2202#16 = .ld 1 2 ∧ decode 0x7601#16 = .str 3 0 1 ∧ decode 0xB607#16 = .sti 3 7 ∧
  decode 0x03FD#16 = .br false false true (-3) ∧ decode 0x4802#16 = .jsr 2 ∧ decode 0xC1C0#16 = .jmp 7 ∧
  decode 0xF025#16 = .trap 0x25

/-! ### The flags and the operate family -/

/-- 41_operate.md R105: `setcc` sets exactly one flag by the table and nothing but the flags, and ADD, AND, NOT, LD, LDR and LDI
call it on the value they write to DR. -/
def Obligations.SetccSetsExactlyOneFlag : Prop :=
  (∀ (v : Word) (l : Latch), FlagsFor v (l.setCc v).next.cc ∧
    (l.setCc v).next.pc = l.next.pc ∧ (∀ r, (l.setCc v).next.reg r = l.next.reg r) ∧ (l.setCc v).write = l.write) ∧
  (∀ (i : Instr) (s t : State), callsSetcc i = true → s.run = .running → exec i s = .next t → t.run = .running →
    ∃ dr, registerWritten i = some dr ∧ FlagsFor (t.reg dr) t.current.cc)

/-- ADD, register form (41_operate.md section 2), for every Word that encodes it, so whatever the ignored bits 4..3 hold (the
spec's decision D5, log entry 8). -/
def Obligations.AddRegisterResult : Prop :=
  ∀ (ir : Word) (s : State), opcodeOf ir = 0x1#4 → ir.getLsbD 5 = false →
    decode ir = .addReg (reg11 ir) (reg8 ir) (reg2 ir) ∧
    ∃ t, exec (.addReg (reg11 ir) (reg8 ir) (reg2 ir)) s = .next t ∧
      WritesResult (reg11 ir) (s.reg (reg8 ir) + s.reg (reg2 ir)) s t

/-- 41_operate.md R107. -/
def Obligations.AddImmediateResult : Prop :=
  ∀ (ir : Word) (s : State), opcodeOf ir = 0x1#4 → ir.getLsbD 5 = true →
    decode ir = .addImm (reg11 ir) (reg8 ir) (imm5Of ir).toInt ∧
    ∃ t, exec (.addImm (reg11 ir) (reg8 ir) (imm5Of ir).toInt) s = .next t ∧
      WritesResult (reg11 ir) (s.reg (reg8 ir) + sext16 (imm5Of ir)) s t

/-- AND, register form (41_operate.md section 3), for every Word that encodes it, so whatever the ignored bits 4..3 hold (the
spec's decision D5, log entry 8). -/
def Obligations.AndRegisterResult : Prop :=
  ∀ (ir : Word) (s : State), opcodeOf ir = 0x5#4 → ir.getLsbD 5 = false →
    decode ir = .andReg (reg11 ir) (reg8 ir) (reg2 ir) ∧
    ∃ t, exec (.andReg (reg11 ir) (reg8 ir) (reg2 ir)) s = .next t ∧
      WritesResult (reg11 ir) (s.reg (reg8 ir) &&& s.reg (reg2 ir)) s t

/-- 41_operate.md R109. -/
def Obligations.AndImmediateResult : Prop :=
  ∀ (ir : Word) (s : State), opcodeOf ir = 0x5#4 → ir.getLsbD 5 = true →
    decode ir = .andImm (reg11 ir) (reg8 ir) (imm5Of ir).toInt ∧
    ∃ t, exec (.andImm (reg11 ir) (reg8 ir) (imm5Of ir).toInt) s = .next t ∧
      WritesResult (reg11 ir) (s.reg (reg8 ir) &&& sext16 (imm5Of ir)) s t

/-- NOT (41_operate.md section 4), whatever the ignored bits 5..0 hold (the spec's decision D5, log entry 8). The result is
0xFFFF less the source. -/
def Obligations.NotResult : Prop :=
  ∀ (ir : Word) (s : State), opcodeOf ir = 0x9#4 →
    decode ir = .not (reg11 ir) (reg8 ir) ∧
    ∃ t, exec (.not (reg11 ir) (reg8 ir)) s = .next t ∧ WritesResult (reg11 ir) (0xFFFF#16 - s.reg (reg8 ir)) s t

/-- 41_operate.md section 5 and the source's section 8: the register and immediate forms agree when the register holds the
immediate's value. The rule is marked as the spec's inference. -/
def Obligations.RegisterAndImmediateFormsAgree : Prop :=
  ∀ (d a b : Reg) (i : BitVec 5) (s : State), s.reg b = sext16 i →
    exec (.addReg d a b) s = exec (.addImm d a i.toInt) s ∧ exec (.andReg d a b) s = exec (.andImm d a i.toInt) s

/-- NOT and then ADD #1 negate a register modulo 2^16, which the spec infers (41_operate.md section 5). -/
def Obligations.NotThenAddOneNegates : Prop :=
  ∀ (d a : Reg) (s : State), ∃ t u,
    exec (.not d a) s = .next t ∧ exec (.addImm d d 1) t = .next u ∧ u.reg d = 0x0000#16 - s.reg a ∧
    FlagsFor (0x0000#16 - s.reg a) u.current.cc ∧ SameRegsBut d s u ∧ SameBytes s u

/-! ### The data movement family -/

/-- LD (42_data_movement.md section 2): the result inside the array and the fault outside it. The fault's record and the
unchanged counter are the spec's decisions D8 and D22 (log entry 10). -/
def Obligations.LdResult : Prop :=
  ∀ (ir : Word) (s : State) (ea : Word), opcodeOf ir = 0x2#4 → ea = s.pc + 1 + sext16 (offset9Of ir) →
    decode ir = .ld (reg11 ir) (offset9Of ir).toInt ∧
    (ea.toNat < 32768 → ∃ t, exec (.ld (reg11 ir) (offset9Of ir).toInt) s = .next t ∧
      WritesResult (reg11 ir) (s.mem.readWord ea) s t) ∧
    (32768 ≤ ea.toNat → exec (.ld (reg11 ir) (offset9Of ir).toInt) s = .next (faultedAt s ea .read))

/-- LDR (42_data_movement.md section 2), as for LD. The address is the sum modulo 2^16, checked after it wraps (the spec's
decision D6, log entry 9). -/
def Obligations.LdrResult : Prop :=
  ∀ (ir : Word) (s : State) (ea : Word), opcodeOf ir = 0x6#4 → ea = s.reg (reg8 ir) + sext16 (offset6Of ir) →
    decode ir = .ldr (reg11 ir) (reg8 ir) (offset6Of ir).toInt ∧
    (ea.toNat < 32768 → ∃ t, exec (.ldr (reg11 ir) (reg8 ir) (offset6Of ir).toInt) s = .next t ∧
      WritesResult (reg11 ir) (s.mem.readWord ea) s t) ∧
    (32768 ≤ ea.toNat → exec (.ldr (reg11 ir) (reg8 ir) (offset6Of ir).toInt) s = .next (faultedAt s ea .read))

/-- LDI (42_data_movement.md section 2): the pointer address is checked first, then the pointer (the spec's decisions D8, D19
and D22, log entry 10). The flags follow the final value. -/
def Obligations.LdiResult : Prop :=
  ∀ (ir : Word) (s : State) (pa p : Word), opcodeOf ir = 0xA#4 → pa = s.pc + 1 + sext16 (offset9Of ir) →
    p = s.mem.readWord pa →
    decode ir = .ldi (reg11 ir) (offset9Of ir).toInt ∧
    (pa.toNat < 32768 → p.toNat < 32768 → ∃ t, exec (.ldi (reg11 ir) (offset9Of ir).toInt) s = .next t ∧
      WritesResult (reg11 ir) (s.mem.readWord p) s t) ∧
    (pa.toNat < 32768 → 32768 ≤ p.toNat →
      exec (.ldi (reg11 ir) (offset9Of ir).toInt) s = .next (faultedAt s p .read)) ∧
    (32768 ≤ pa.toNat → exec (.ldi (reg11 ir) (offset9Of ir).toInt) s = .next (faultedAt s pa .read))

/-- ST (42_data_movement.md section 3): for the address the meaning computes, the store inside the array and the fault outside
it (the spec's decisions D8 and D22, log entry 10). -/
def Obligations.StResult : Prop :=
  ∀ (ir : Word) (s : State) (ea : Word), opcodeOf ir = 0x3#4 → s.pcRelative (offset9Of ir).toInt = ea →
    decode ir = .st (reg11 ir) (offset9Of ir).toInt ∧ ea = s.pc + 1 + sext16 (offset9Of ir) ∧
    (ea.toNat < 32768 → ∃ t, exec (.st (reg11 ir) (offset9Of ir).toInt) s = .next t ∧
      StoresWord ea (s.reg (reg11 ir)) s t) ∧
    (32768 ≤ ea.toNat → exec (.st (reg11 ir) (offset9Of ir).toInt) s = .next (faultedAt s ea .write))

/-- STR (42_data_movement.md section 3), as for ST. The address is the sum modulo 2^16, checked after it wraps (the spec's
decision D6, log entry 9). -/
def Obligations.StrResult : Prop :=
  ∀ (ir : Word) (s : State) (ea : Word), opcodeOf ir = 0x7#4 → s.baseOffset (reg8 ir) (offset6Of ir).toInt = ea →
    decode ir = .str (reg11 ir) (reg8 ir) (offset6Of ir).toInt ∧ ea = s.reg (reg8 ir) + sext16 (offset6Of ir) ∧
    (ea.toNat < 32768 → ∃ t, exec (.str (reg11 ir) (reg8 ir) (offset6Of ir).toInt) s = .next t ∧
      StoresWord ea (s.reg (reg11 ir)) s t) ∧
    (32768 ≤ ea.toNat → exec (.str (reg11 ir) (reg8 ir) (offset6Of ir).toInt) s = .next (faultedAt s ea .write))

/-- STI (42_data_movement.md section 3): the pointer address is checked first as a read, then the pointer as a write (the spec's
decisions D8, D19 and D22, log entry 10). -/
def Obligations.StiResult : Prop :=
  ∀ (ir : Word) (s : State) (pa p : Word), opcodeOf ir = 0xB#4 → s.pcRelative (offset9Of ir).toInt = pa →
    s.mem.readWord pa = p →
    decode ir = .sti (reg11 ir) (offset9Of ir).toInt ∧ pa = s.pc + 1 + sext16 (offset9Of ir) ∧
    (pa.toNat < 32768 → p.toNat < 32768 → ∃ t, exec (.sti (reg11 ir) (offset9Of ir).toInt) s = .next t ∧
      StoresWord p (s.reg (reg11 ir)) s t) ∧
    (pa.toNat < 32768 → 32768 ≤ p.toNat →
      exec (.sti (reg11 ir) (offset9Of ir).toInt) s = .next (faultedAt s p .write)) ∧
    (32768 ≤ pa.toNat → exec (.sti (reg11 ir) (offset9Of ir).toInt) s = .next (faultedAt s pa .read))

/-- 42_data_movement.md R122: DR receives the address modulo 2^16, with no access, no fault and no flag. -/
def Obligations.LeaResult : Prop :=
  ∀ (ir : Word) (s : State), opcodeOf ir = 0xE#4 →
    decode ir = .lea (reg11 ir) (offset9Of ir).toInt ∧
    ∃ t, exec (.lea (reg11 ir) (offset9Of ir).toInt) s = .next t ∧
      t.reg (reg11 ir) = s.pc + 1 + sext16 (offset9Of ir) ∧ t.pc = s.pc + 1 ∧
      SameRegsBut (reg11 ir) s t ∧ SameFlags s t ∧ SameBytes s t ∧ CountsOnce s t

/-! ### The control family -/

/-- 43_control.md R130. -/
def Obligations.BrResult : Prop :=
  ∀ (ir : Word) (s : State), opcodeOf ir = 0x0#4 →
    let taken := ir.getLsbD 11 = true ∧ s.current.cc.n = true ∨ ir.getLsbD 10 = true ∧ s.current.cc.z = true ∨
      ir.getLsbD 9 = true ∧ s.current.cc.p = true
    let i : Instr := .br (ir.getLsbD 11) (ir.getLsbD 10) (ir.getLsbD 9) (offset9Of ir).toInt
    decode ir = i ∧
    ∃ t, exec i s = .next t ∧ (taken → MovesPc (s.pc + 1 + sext16 (offset9Of ir)) s t) ∧
      (¬ taken → MovesPc (s.pc + 1) s t)

/-- BR with no test bit never branches and BR with all three always does, whatever the flags and for every offset value
(43_control.md section 1; the rule is marked as the spec's inference). -/
def Obligations.BrNeverAndAlways : Prop :=
  ∀ (o : BitVec 9) (s : State),
    (∃ t, exec (.br false false false o.toInt) s = .next t ∧ MovesPc (s.pc + 1) s t) ∧
    (∃ t, exec (.br true true true o.toInt) s = .next t ∧ MovesPc (s.pc + 1 + sext16 o) s t)

/-- 43_control.md R132. -/
def Obligations.JsrResult : Prop :=
  ∀ (ir : Word) (s : State), opcodeOf ir = 0x4#4 → ir.getLsbD 11 = true →
    decode ir = .jsr (offset11Of ir).toInt ∧
    ∃ t, exec (.jsr (offset11Of ir).toInt) s = .next t ∧ LinksAndJumps (s.pc + 1 + sext16 (offset11Of ir)) s t

/-- JSRR (43_control.md section 2) for every base register, R7 included, whose CURRENT value is the target (90_conflicts.md C2),
whatever the ignored bits hold (the spec's decision D5, log entry 8). -/
def Obligations.JsrrResult : Prop :=
  ∀ (ir : Word) (s : State), opcodeOf ir = 0x4#4 → ir.getLsbD 11 = false →
    decode ir = .jsrr (reg8 ir) ∧ ∃ t, exec (.jsrr (reg8 ir)) s = .next t ∧ LinksAndJumps (s.reg (reg8 ir)) s t

/-- JMP (43_control.md section 2) for every base register, whatever the ignored bits hold (the spec's decision D5, log entry 8),
and its effect is JSRR's. -/
def Obligations.JmpResult : Prop :=
  ∀ (ir : Word) (s : State), opcodeOf ir = 0xC#4 →
    decode ir = .jmp (reg8 ir) ∧ exec (.jmp (reg8 ir)) s = exec (.jsrr (reg8 ir)) s ∧
    ∃ t, exec (.jmp (reg8 ir)) s = .next t ∧ LinksAndJumps (s.reg (reg8 ir)) s t

/-- TRAP (43_control.md section 3): vector 0x25 sets the PC to 0, every other vector only advances it, whatever bits 11..8 hold
(the spec's decision D5, log entry 8). -/
def Obligations.TrapResult : Prop :=
  ∀ (ir : Word) (s : State), opcodeOf ir = 0xF#4 →
    decode ir = .trap (vector8Of ir).toNat ∧
    ∃ t, exec (.trap (vector8Of ir).toNat) s = .next t ∧
      MovesPc (if vector8Of ir = 0x25#8 then 0x0000#16 else s.pc + 1) s t

/-- RTI and opcode 13 only advance the PC, whatever bits 11..0 hold (43_control.md section 4; the spec's decisions D4 and D5,
log entries 7 and 8). -/
def Obligations.UnimplementedOpcodesAreNoOps : Prop :=
  ∀ (ir : Word) (s : State),
    (opcodeOf ir = 0x8#4 → decode ir = .rti ∧ ∃ t, exec .rti s = .next t ∧ MovesPc (s.pc + 1) s t) ∧
    (opcodeOf ir = 0xD#4 → decode ir = .reserved13 ∧ ∃ t, exec .reserved13 s = .next t ∧ MovesPc (s.pc + 1) s t)

/-- 60_exceptions.md section 1 on UnimplementedOpcode (the spec's decision D4, log entry 7): no step of this hardware raises it,
and under the alternative policy the executor of opcodes 8 and 13 takes it with the named record and no other change. -/
def Obligations.UnimplementedOpcodePolicies : Prop :=
  (∀ (s t : State) (record : FaultRecord), s.run = .running → step s = .next t → t.run = .faulted record →
    record.kind ≠ .unimplementedOpcode) ∧
  (∀ s : State, s.finish (s.unimplemented .fault) =
    .next { s with run := .faulted { kind := .unimplementedOpcode, addr := s.pc, access := .fetch, pc := s.pc } })

/-! ### Whole-machine rules over every instruction -/

/-- 10_state.md R26: only ADD, AND, NOT, LD, LDR and LDI write the flags, from the value they write to DR, and only BR reads
them. The second clause speaks of a step that commits. -/
def Obligations.OnlySetccWritesAndOnlyBrReadsTheFlags : Prop :=
  (∀ (i : Instr) (s t : State), exec i s = .next t → callsSetcc i = false → SameFlags s t) ∧
  (∀ (i : Instr) (s t : State), s.run = .running → exec i s = .next t → t.run = .running → callsSetcc i = true →
    ∃ dr, registerWritten i = some dr ∧ FlagsFor (t.reg dr) t.current.cc) ∧
  (∀ (i : Instr) (s t : State) (cc : CC), isBranch i = false → exec i s = .next t →
    ∃ u, exec i { s with current := { s.current with cc := cc } } = .next u ∧
      u.pc = t.pc ∧ SameRegs t u ∧ u.mem = t.mem ∧ u.run = t.run ∧ u.cycles = t.cycles)

/-- The written column of 10_state.md R22, which is marked as the spec's inference: an instruction changes at most the register
that column names. -/
def Obligations.OnlyTheTableRegisterIsWritten : Prop :=
  ∀ (i : Instr) (s t : State), exec i s = .next t → ∀ r, registerWritten i ≠ some r → t.reg r = s.reg r

/-- The read column of 10_state.md R22, which is marked as the spec's inference: an instruction's outcome depends on no other
register than the ones that column names. -/
def Obligations.OnlyTheTableRegistersAreRead : Prop :=
  ∀ (i : Instr) (s u t : State), s.run = .running → u.run = .running → u.pc = s.pc → u.current.cc = s.current.cc →
    u.mem = s.mem → (∀ r ∈ registersRead i, u.reg r = s.reg r) → exec i s = .next t →
    ∃ t', exec i u = .next t' ∧ t'.pc = t.pc ∧ t'.current.cc = t.current.cc ∧ t'.mem = t.mem ∧ t'.run = t.run ∧
      (t.run = .running → ∀ r, registerWritten i = some r → t'.reg r = t.reg r)

/-- The run state, the fault record and the counter are hidden: no instruction reads them (10_state.md section 6). -/
def Obligations.HiddenStateIsNotRead : Prop :=
  ∀ (i : Instr) (s t : State) (run : RunState) (cycles : Nat), exec i s = .next t →
    ∃ u, exec i { s with run := run, cycles := cycles } = .next u ∧ u.current = t.current ∧ u.mem = t.mem

/-- The table of 40_fetch_and_cycle.md section 2, from the Word that is executed; the section is marked as the spec's inference.
A step that faults leaves the PC. -/
def Obligations.NextPcFollowsTheTable : Prop :=
  ∀ (ir : Word) (s t : State), s.run = .running → exec (decode ir) s = .next t →
    (t.run = .running → t.pc = nextPc ir s) ∧ (t.run ≠ .running → t.pc = s.pc)

/-- Each instruction performs at most one memory write, of a Word, at the address its meaning computes: every byte outside that
Word is unchanged, and so is all of memory for a form that stores nothing (20_memory.md section 3, marked as the spec's
inference). -/
def Obligations.EveryInstructionStoresAtMostOneWord : Prop :=
  ∀ (i : Instr) (s t : State), exec i s = .next t →
    (∀ a r, storeOf i s = some (a, r) → SameBytesBut a s t) ∧ (storeOf i s = none → SameBytes s t)

/-- A store is visible to the next step's fetch (20_memory.md section 5 and 70_reset_and_hazards.md section 3, marked as the
spec's inference): a step that commits a store to the address the PC then holds is followed by that Word's instruction. -/
def Obligations.StoredWordIsFetchedNext : Prop :=
  ∀ (s t : State) (a : Word) (r : Reg), Executes s → storeOf (decode (s.mem.readWord s.pc)) s = some (a, r) →
    step s = .next t → t.run = .running → t.pc = a → a ≠ 0x0000#16 → step t = exec (decode (s.reg r)) t

/-! ### The Cycle Driver -/

/-- A step that finds an instruction runs it: at a PC inside the array that is not the sentinel, the step is the instruction
decoded from the Word there, and nothing is added around it. -/
def Obligations.StepRunsTheDecodedInstruction : Prop :=
  ∀ (s : State), Executes s → step s = exec (decode (s.mem.readWord s.pc)) s

/-- The same for an instruction placed by `State.withFetchWord` in any state (the model's choice, log entry 6): the next step
runs exactly the instruction of the Word placed, and in a state that would execute, placing it changes only that Word. -/
def Obligations.PlacedInstructionRunsNext : Prop :=
  ∀ (s : State) (ir : Word),
    let placed := s.withFetchWord 16 ir.toNat
    Executes placed ∧ step placed = exec (decode ir) placed ∧
    (Executes s → placed = { s with mem := s.mem.writeWord s.pc ir })

/-- In HALTED and in FAULTED a step changes nothing and reports that state (40_fetch_and_cycle.md section 1; for FAULTED the
spec's decision D9, log entry 10). -/
def Obligations.StoppedEngineIgnoresSteps : Prop :=
  (∀ s : State, s.run = .halted → step s = .next s ∧ s.stepCommand = .next (s, .halted)) ∧
  (∀ (s : State) (record : FaultRecord), s.run = .faulted record →
    step s = .next s ∧ s.stepCommand = .next (s, .faulted record))

/-- The halt check (40_fetch_and_cycle.md section 1): RUNNING at PC 0, the step changes only the run state, to HALTED, and
reports it. That the step does not count is the spec's decision D10 (log entry 11). -/
def Obligations.HaltCheckChangesOnlyTheRunState : Prop :=
  ∀ s : State, s.run = .running → s.pc = 0x0000#16 →
    step s = .next { s with run := .halted } ∧ s.stepCommand = .next ({ s with run := .halted }, .halted)

/-- A fetch at 32768 or above takes the fault (40_fetch_and_cycle.md section 1, 60_exceptions.md section 1; the spec's decisions
D7, D8 and D22, log entry 10). -/
def Obligations.FetchOutOfBoundsFaults : Prop :=
  ∀ s : State, s.run = .running → 32768 ≤ s.pc.toNat →
    step s = .next (faultedAt s s.pc .fetch) ∧
    s.stepCommand = .next (faultedAt s s.pc .fetch, .faulted ⟨.outOfBoundsAddress, s.pc, .fetch, s.pc⟩)

/-- Every step answers a next state, and the only exception it can take is OutOfBoundsAddress: the run state stays, or RUNNING
becomes HALTED, or RUNNING becomes FAULTED with a record of that kind (60_exceptions.md section 1). That a fault is a next state
is the model's reading (log entry 15, DEDUCED); that no Word raises UnimplementedOpcode is the spec's decision D4 (log entry
7). -/
def Obligations.EveryStepHasANextState : Prop :=
  ∀ s : State, ∃ t, step s = .next t ∧
    (t.run = s.run ∨ s.run = .running ∧ t.run = .halted ∨
      ∃ record, s.run = .running ∧ t.run = .faulted record ∧ record.kind = .outOfBoundsAddress)

/-- The first access out of bounds decides the step, in the order fetch, then the instruction's accesses, and a step with none
commits (60_exceptions.md section 1; the spec's decisions D7, D8 and D19, log entry 10). -/
def Obligations.FirstFailingAccessDecidesTheStep : Prop :=
  ∀ s t : State, s.run = .running → s.pc ≠ 0x0000#16 → step s = .next t →
    match firstOutOfBounds ((s.pc, .fetch) :: dataAccesses (decode (s.mem.readWord s.pc)) s) with
    | some (a, access) => t = faultedAt s a access
    | none => t.run = .running ∧ t.cycles = s.cycles + 1

/-- Faults are precise (60_exceptions.md section 1; the counter is the spec's decision D22, log entry 10): a step that enters
FAULTED changes nothing but the run state. -/
def Obligations.FaultsArePrecise : Prop :=
  ∀ s t : State, s.run = .running → step s = .next t → t.IsFaulted →
    t.getState = s.getState ∧ t.mem = s.mem ∧ t.cycles = s.cycles ∧
    ∃ record, t.faultRecord = some record ∧ record.pc = s.pc ∧ 32768 ≤ record.addr.toNat

/-- FAULTED is absorbing (60_exceptions.md section 1, the spec's decision D9, log entry 10): any number of steps leaves the state,
and every `run_for` of one step or more reports the same record. -/
def Obligations.FaultedIsAbsorbing : Prop :=
  ∀ (s : State) (record : FaultRecord) (n : Nat), s.run = .faulted record →
    s.ReachesIn n s ∧ s.runFor (n + 1) = .next (s, .faulted record)

/-- 40_fetch_and_cycle.md R93: the counter rises by exactly 1 in each step that commits and in no other, so after `k` committed
steps from launch it is `k`. -/
def Obligations.CyclesCountCommittedSteps : Prop :=
  (∀ s t : State, step s = .next t → t.cycles = if t.run = .running then s.cycles + 1 else s.cycles) ∧
  (∀ (regInit : Vector Word 8) (entryPC : Word) (memInit : Memory) (k : Nat) (t : State),
    (State.launch regInit entryPC memInit).ReachesIn k t → t.run = .running → t.cycleCount = k)

/-- The halt takes one extra step, which does not count, and `is_halted()` is false in between (70_reset_and_hazards.md section 3;
the spec's decisions D5, D10 and D11, log entries 8 and 11). -/
def Obligations.HaltTakesOneExtraStep : Prop :=
  ∀ s : State, Executes s → opcodeOf (s.mem.readWord s.pc) = 0xF#4 → vector8Of (s.mem.readWord s.pc) = 0x25#8 →
    ∃ t u, s.stepCommand = .next (t, .ok) ∧ MovesPc 0x0000#16 s t ∧ t.isHalted = false ∧
      t.stepCommand = .next (u, .halted) ∧ u = { t with run := .halted } ∧ u.isHalted = true ∧
      u.stepCommand = .next (u, .halted)

/-- A memory of the canonical form, HALTED at the sentinel, and a fault record that explains the fault: every step from any
state keeps the invariant (`State.Inv`). -/
def Obligations.StepKeepsTheInvariant : Prop := ∀ s t : State, s.Inv → step s = .next t → t.Inv

/-! ### Runs -/

/-- `run_for(n)` (40_fetch_and_cycle.md section 3; the stop at a fault is the spec's decision D13, log entry 13): stopping early
cannot be told from making all `n` calls, and the result is that of the last call, or `Ok` if there is none. -/
def Obligations.RunForIsIteratedStep : Prop :=
  ∀ (n : Nat) (s t : State) (result : StepResult),
    s.runFor n = .next (t, result) ↔ s.ReachesIn n t ∧ result = if n = 0 then .ok else t.result

/-- `run_to_completion()` has one answer if it has any, and it is a stopped state: HALTED at the sentinel, or FAULTED
(40_fetch_and_cycle.md section 3, 70_reset_and_hazards.md section 4; the spec's decision D13, log entry 13). -/
def Obligations.RunToCompletionHasOneAnswer : Prop :=
  ∀ (s t u : State) (result result' : StepResult), s.Inv → s.RunsToCompletion t result → s.RunsToCompletion u result' →
    t = u ∧ result = result' ∧ (t.isHalted = true ∧ t.pc = 0x0000#16 ∨ t.IsFaulted)

/-- A run is safe exactly when no state it reaches has a step with an access out of bounds (60_exceptions.md section 1; the spec's
decisions D7 and D9, log entry 10). -/
def Obligations.SafeRunsAreThoseWithoutAFailingAccess : Prop :=
  ∀ s : State, ¬ s.IsFaulted →
    (s.SafeRun ↔ ∀ t, s.Reaches t → t.run = .running → t.pc ≠ 0x0000#16 →
      firstOutOfBounds ((t.pc, .fetch) :: dataAccesses (decode (t.mem.readWord t.pc)) t) = none)
end

