-- ==== Sys2Proof/Laws/Decode.lean ====
section
/-! SUPPORT. The laws of the codec: what the signed, unsigned and register fields of a Word are, and that an immediate is the
sign extension of its field. -/

namespace Sys2Proof

theorem signedField_eq (w : Word) {lo hi : Nat} (h : hi - lo < 16) :
    signedField w lo hi = (w.extractLsb' lo (hi - lo + 1)).toInt := by
  simp only [signedField, extractField, if_true]
  exact BitVec.toInt_signExtend_of_le (by omega)

theorem unsignedField_eq (w : Word) {lo hi : Nat} (h : hi - lo < 16) :
    unsignedField w lo hi = (w.extractLsb' lo (hi - lo + 1)).toNat := by
  simp only [unsignedField, extractField, Bool.false_eq_true, if_false]
  exact BitVec.toNat_setWidth_of_le (by omega)

@[simp] theorem fieldOfReg_toFin (f : BitVec 3) : fieldOfReg f.toFin = f := rfl

@[simp] theorem toFin_fieldOfReg (r : Reg) : (fieldOfReg r).toFin = r := rfl

/-- The Word of an immediate is `sext_16` of its field (00_scope.md R10). -/
theorem Machine.immediate_toInt {n : Nat} (f : BitVec n) : Machine.immediate f.toInt = f.signExtend 16 := rfl

/-- A signed value in the range of a field comes back from it. -/
theorem toInt_ofInt_of_fits {bits : Nat} {v : Int} (h0 : 0 < bits) (h : FitsSigned bits v) :
    (BitVec.ofInt bits v).toInt = v := by
  have : (2 : Int) ^ bits = 2 * 2 ^ (bits - 1) := by
    conv_lhs => rw [show bits = bits - 1 + 1 by omega, pow_succ]
    ring
  rw [BitVec.toInt_ofInt]
  apply Int.bmod_eq_of_le <;> push_cast <;> unfold FitsSigned at h <;> omega

theorem fits_toInt {bits : Nat} (f : BitVec bits) : FitsSigned bits f.toInt :=
  ⟨BitVec.le_toInt f, BitVec.toInt_lt⟩

end Sys2Proof
end

