-- ==== Sys2Proof/Laws/Memory.lean ====
section
/-! SUPPORT. The laws of the memory list: a read after a write, what a write leaves alone, and that every operation keeps the
canonical form. -/

namespace Sys2Proof.Machine

variable {m : Memory} {k j : Nat} {b : Byte} {a v : Word}

/-! ### One cell -/

theorem Memory.readByte_of_absent (h : ∀ cell ∈ m, cell.1 ≠ k) : m.readByte k = Config.unlistedByte := by
  induction m with
  | nil => rfl
  | cons cell rest ih =>
    have hk : cell.1 ≠ k := h cell (by simp)
    have hrest := ih fun c hc => h c (by simp [hc])
    simpa [Memory.readByte, hk] using hrest

theorem Memory.readByte_insertCell (h : ∀ cell ∈ m, cell.1 ≠ k) :
    (Memory.insertCell (k, b) m).readByte j = if j = k then b else m.readByte j := by
  induction m with
  | nil => simp [Memory.insertCell, Memory.readByte, eq_comm]
  | cons cell rest ih =>
    have hk : cell.1 ≠ k := h cell (by simp)
    have hrest := ih fun c hc => h c (by simp [hc])
    unfold Memory.insertCell
    split
    · simp [Memory.readByte, eq_comm]
    · rw [Memory.readByte, hrest, Memory.readByte]
      by_cases hj : j = k
      · simp [hj, hk]
      · simp [hj]

theorem Memory.readByte_forgetCell :
    (m.forgetCell k).readByte j = if j = k then Config.unlistedByte else m.readByte j := by
  induction m with
  | nil => simp [Memory.forgetCell, Memory.readByte]
  | cons cell rest ih =>
    unfold Memory.forgetCell at ih ⊢
    rw [List.filter_cons, Memory.readByte]
    by_cases hc : cell.1 = k
    · rw [if_neg (by simp [hc]), ih]
      by_cases hj : j = k
      · simp [hj]
      · rw [if_neg hj, if_neg hj, if_neg fun e => hj (e.symm.trans hc)]
    · rw [if_pos (by simp [hc]), Memory.readByte, ih]
      by_cases hj : j = k
      · rw [if_neg fun e => hc (e.trans hj), if_pos hj, if_pos hj]
      · rw [if_neg hj, if_neg hj]

theorem Memory.absent_forgetCell : ∀ cell ∈ m.forgetCell k, cell.1 ≠ k := by
  simp [Memory.forgetCell]

/-- Everything a byte write does to a byte read. -/
theorem Memory.readByte_writeByte :
    (m.writeByte k b).readByte j = if j = k then b else m.readByte j := by
  unfold Memory.writeByte
  split
  · rename_i hb
    rw [Memory.readByte_forgetCell, hb]
  · rw [Memory.readByte_insertCell Memory.absent_forgetCell, Memory.readByte_forgetCell]
    split <;> simp_all

/-! ### The canonical form -/

theorem Memory.mem_insertCell {cell c : Host.Cell} : c ∈ Memory.insertCell cell m ↔ c = cell ∨ c ∈ m := by
  induction m with
  | nil => simp [Memory.insertCell]
  | cons head rest ih =>
    unfold Memory.insertCell
    split <;> simp [ih, or_left_comm]

theorem Memory.pairwise_insertCell {cell : Host.Cell} (hm : m.Pairwise fun c d => c.1 < d.1)
    (h : ∀ c ∈ m, c.1 ≠ cell.1) : (Memory.insertCell cell m).Pairwise fun c d => c.1 < d.1 := by
  induction m with
  | nil => simp [Memory.insertCell]
  | cons head rest ih =>
    rw [List.pairwise_cons] at hm
    unfold Memory.insertCell
    split
    · rename_i hlt
      refine List.pairwise_cons.2 ⟨fun c hc => ?_, List.pairwise_cons.2 hm⟩
      rcases List.mem_cons.1 hc with rfl | hc
      · exact hlt
      · exact hlt.trans (hm.1 c hc)
    · rename_i hge
      refine List.pairwise_cons.2 ⟨fun c hc => ?_, ih hm.2 fun c hc => h c (by simp [hc])⟩
      rcases Memory.mem_insertCell.1 hc with rfl | hc
      · exact lt_of_le_of_ne (not_lt.1 hge) (h head (by simp))
      · exact hm.1 c hc

theorem Memory.wf_forgetCell (h : m.wf) : (m.forgetCell k).wf :=
  ⟨h.1.filter _, fun c hc => h.2 c (List.mem_of_mem_filter hc)⟩

theorem Memory.wf_writeByte (h : m.wf) (hk : k < 2 * Config.memWords) : (m.writeByte k b).wf := by
  unfold Memory.writeByte
  split
  · exact Memory.wf_forgetCell h
  · rename_i hb
    have hf := Memory.wf_forgetCell (k := k) h
    refine ⟨Memory.pairwise_insertCell hf.1 Memory.absent_forgetCell, fun c hc => ?_⟩
    rcases Memory.mem_insertCell.1 hc with rfl | hc
    · exact ⟨hk, hb⟩
    · exact hf.2 c hc

theorem Memory.wf_writeWord (h : m.wf) (ha : InBounds a) : (m.writeWord a v).wf := by
  have : a.toNat < 32768 := ha
  refine Memory.wf_writeByte (Memory.wf_writeByte h ?_) ?_ <;> simp only [lowCell, Config.memWords] <;> omega

/-! ### One Word -/

/-- Everything a Word write does to a byte read: the two cells of the Word change, and no other. -/
theorem Memory.readByte_writeWord :
    (m.writeWord a v).readByte j =
      if j = lowCell a + 1 then v.extractLsb' 8 8 else if j = lowCell a then v.extractLsb' 0 8 else m.readByte j := by
  unfold Memory.writeWord
  rw [Memory.readByte_writeByte, Memory.readByte_writeByte]

theorem wordOfBytes_halves : wordOfBytes (v.extractLsb' 0 8) (v.extractLsb' 8 8) = v := by
  unfold wordOfBytes
  ext i hi
  simp only [BitVec.getElem_append, BitVec.getElem_extractLsb']
  split
  · simp [BitVec.getLsbD_eq_getElem hi]
  · have : 8 + (i - 8) = i := by omega
    simp [this, BitVec.getLsbD_eq_getElem hi]

@[simp] theorem low_wordOfBytes (low high : Byte) : (wordOfBytes low high).extractLsb' 0 8 = low := by
  ext i hi
  simp only [wordOfBytes, BitVec.getElem_extractLsb', BitVec.getLsbD_append]
  rw [if_pos (by omega), Nat.zero_add, BitVec.getLsbD_eq_getElem hi]

@[simp] theorem high_wordOfBytes (low high : Byte) : (wordOfBytes low high).extractLsb' 8 8 = high := by
  ext i hi
  simp only [wordOfBytes, BitVec.getElem_extractLsb', BitVec.getLsbD_append]
  rw [if_neg (by omega), Nat.add_sub_cancel_left, BitVec.getLsbD_eq_getElem hi]

/-- The two cells of a Word are its two halves. -/
theorem Memory.readByte_of_readWord :
    m.readByte (lowCell a) = (m.readWord a).extractLsb' 0 8 ∧ m.readByte (lowCell a + 1) = (m.readWord a).extractLsb' 8 8 :=
  ⟨(low_wordOfBytes _ _).symm, (high_wordOfBytes _ _).symm⟩

@[simp] theorem Memory.readWord_writeWord_same : (m.writeWord a v).readWord a = v := by
  unfold Memory.readWord
  rw [Memory.readByte_writeWord, Memory.readByte_writeWord]
  simp [wordOfBytes_halves]

theorem Memory.readWord_writeWord_other {b : Word} (h : b ≠ a) : (m.writeWord a v).readWord b = m.readWord b := by
  have hne : b.toNat ≠ a.toNat := fun e => h (BitVec.eq_of_toNat_eq e)
  unfold Memory.readWord
  rw [Memory.readByte_writeWord, Memory.readByte_writeWord]
  have h1 : lowCell b ≠ lowCell a + 1 := by unfold lowCell; omega
  have h2 : lowCell b ≠ lowCell a := by unfold lowCell; omega
  have h3 : lowCell b + 1 ≠ lowCell a := by unfold lowCell; omega
  rw [if_neg h1, if_neg h2, if_neg (by omega), if_neg h3]

theorem Memory.wf_empty : Memory.wf [] := by decide

end Sys2Proof.Machine
end

