-- ==== Sys2Proof/Laws/State.lean ====
section
/-! SUPPORT. One lemma per field per update of the state, so that no proof unfolds a record update. -/

namespace Sys2Proof.Machine

variable (s : State) (l : Latch) (p : ProcessorState) (raised : Raise) (v ir : Word) (r q : Reg)

/-! ### Registers of a snapshot -/

@[simp] theorem ProcessorState.setReg_pc : (p.setReg r v).pc = p.pc := rfl
@[simp] theorem ProcessorState.setReg_cc : (p.setReg r v).cc = p.cc := rfl

@[simp] theorem ProcessorState.reg_setReg_same : (p.setReg r v).reg r = v := by
  simp [ProcessorState.reg, ProcessorState.setReg]

theorem ProcessorState.reg_setReg_other {p : ProcessorState} {r q : Reg} {v : Word} (h : q ≠ r) :
    (p.setReg r v).reg q = p.reg q := by
  have : r.val ≠ q.val := fun e => h (Fin.ext e.symm)
  simp [ProcessorState.reg, ProcessorState.setReg, this]

/-- Two snapshots with the same PC, registers and flags are equal. -/
theorem ProcessorState.ext_reg {p p' : ProcessorState} (hpc : p.pc = p'.pc) (hreg : ∀ r, p.reg r = p'.reg r)
    (hcc : p.cc = p'.cc) : p = p' := by
  obtain ⟨pc, regs, cc⟩ := p
  obtain ⟨pc', regs', cc'⟩ := p'
  have : regs = regs' := by
    ext i hi : 1
    exact hreg ⟨i, hi⟩
  simp_all

@[simp] theorem ProcessorState.reg_withPc (pc : Word) : ({ p with pc := pc } : ProcessorState).reg r = p.reg r := rfl
@[simp] theorem ProcessorState.reg_withCc (cc : CC) : ({ p with cc := cc } : ProcessorState).reg r = p.reg r := rfl

/-! ### The state's accessors -/

theorem State.current_reg : s.current.reg r = s.reg r := rfl
theorem State.current_pc : s.current.pc = s.pc := rfl

/-! ### The NEXT snapshot -/

@[simp] theorem State.latch_pc : s.latch.next.pc = s.pcInc := rfl
@[simp] theorem State.latch_reg : s.latch.next.reg r = s.reg r := rfl
@[simp] theorem State.latch_cc : s.latch.next.cc = s.current.cc := rfl
@[simp] theorem State.latch_write : s.latch.write = none := rfl

@[simp] theorem Latch.setReg_pc : (l.setReg r v).next.pc = l.next.pc := rfl
@[simp] theorem Latch.setReg_cc : (l.setReg r v).next.cc = l.next.cc := rfl
@[simp] theorem Latch.setReg_write : (l.setReg r v).write = l.write := rfl
@[simp] theorem Latch.setReg_reg_same : (l.setReg r v).next.reg r = v := by simp [Latch.setReg]

theorem Latch.setReg_reg_other {l : Latch} {r q : Reg} {v : Word} (h : q ≠ r) :
    (l.setReg r v).next.reg q = l.next.reg q := ProcessorState.reg_setReg_other h

@[simp] theorem Latch.setPc_pc : (l.setPc v).next.pc = v := rfl
@[simp] theorem Latch.setPc_reg : (l.setPc v).next.reg r = l.next.reg r := rfl
@[simp] theorem Latch.setPc_cc : (l.setPc v).next.cc = l.next.cc := rfl
@[simp] theorem Latch.setPc_write : (l.setPc v).write = l.write := rfl

@[simp] theorem Latch.setCc_pc : (l.setCc v).next.pc = l.next.pc := rfl
@[simp] theorem Latch.setCc_reg : (l.setCc v).next.reg r = l.next.reg r := rfl
@[simp] theorem Latch.setCc_cc : (l.setCc v).next.cc = ccOf v := rfl
@[simp] theorem Latch.setCc_write : (l.setCc v).write = l.write := rfl

@[simp] theorem Latch.writeResult_pc : (l.writeResult r v).next.pc = l.next.pc := rfl
@[simp] theorem Latch.writeResult_cc : (l.writeResult r v).next.cc = ccOf v := rfl
@[simp] theorem Latch.writeResult_write : (l.writeResult r v).write = l.write := rfl
@[simp] theorem Latch.writeResult_reg_same : (l.writeResult r v).next.reg r = v := by simp [Latch.writeResult]

theorem Latch.writeResult_reg_other {l : Latch} {r q : Reg} {v : Word} (h : q ≠ r) :
    (l.writeResult r v).next.reg q = l.next.reg q := ProcessorState.reg_setReg_other h

/-! ### Commit -/

@[simp] theorem State.commit_current : (s.commit l).current = l.next := rfl
@[simp] theorem State.commit_pc : (s.commit l).pc = l.next.pc := rfl
@[simp] theorem State.commit_reg : (s.commit l).reg r = l.next.reg r := rfl
@[simp] theorem State.commit_mem : (s.commit l).mem = s.mem.perform l.write := rfl
@[simp] theorem State.commit_run : (s.commit l).run = s.run := rfl
@[simp] theorem State.commit_cycles : (s.commit l).cycles = s.cycles + 1 := rfl

@[simp] theorem Memory.perform_none (m : Memory) : m.perform none = m := rfl
@[simp] theorem Memory.perform_some (m : Memory) (a : Word) : m.perform (some (a, v)) = m.writeWord a v := rfl

/-! ### The fault path and the halt -/

@[simp] theorem State.takeFault_current : (s.takeFault raised).current = s.current := rfl
@[simp] theorem State.takeFault_pc : (s.takeFault raised).pc = s.pc := rfl
@[simp] theorem State.takeFault_reg : (s.takeFault raised).reg r = s.reg r := rfl
@[simp] theorem State.takeFault_mem : (s.takeFault raised).mem = s.mem := rfl
@[simp] theorem State.takeFault_cycles : (s.takeFault raised).cycles = s.cycles := rfl
@[simp] theorem State.takeFault_run : (s.takeFault raised).run =
    .faulted { kind := raised.kind, addr := raised.addr, access := raised.access, pc := s.pc } := rfl

@[simp] theorem State.halt_current : s.halt.current = s.current := rfl
@[simp] theorem State.halt_pc : s.halt.pc = s.pc := rfl
@[simp] theorem State.halt_mem : s.halt.mem = s.mem := rfl
@[simp] theorem State.halt_cycles : s.halt.cycles = s.cycles := rfl
@[simp] theorem State.halt_run : s.halt.run = .halted := rfl

/-! ### Launch, and an instruction placed at the fetch -/

@[simp] theorem State.placeAtFetch_pc : (s.placeAtFetch ir).pc = s.fetchPc := rfl
@[simp] theorem State.placeAtFetch_reg : (s.placeAtFetch ir).reg r = s.reg r := rfl
@[simp] theorem State.placeAtFetch_cc : (s.placeAtFetch ir).current.cc = s.current.cc := rfl
@[simp] theorem State.placeAtFetch_mem : (s.placeAtFetch ir).mem = s.mem.writeWord s.fetchPc ir := rfl
@[simp] theorem State.placeAtFetch_run : (s.placeAtFetch ir).run = .running := rfl
@[simp] theorem State.placeAtFetch_cycles : (s.placeAtFetch ir).cycles = s.cycles := rfl

end Sys2Proof.Machine
end

