-- ==== Sys2Proof/Laws/Ops.lean ====
section
/-! SUPPORT. One lemma per shared operation that says once everything it can do, and the executor behind each meaning. -/

namespace Sys2Proof.Machine

variable {s t : State} {m : Memory} {a v ea : Word} {k : Access} {l : Latch} {r : Reg} {off : Int} {raised : Raise}

/-! ### The bound check and the primitives -/

theorem checkAddress_inBounds (h : InBounds a) : checkAddress a k = .ok () := if_pos h

theorem checkAddress_outOfBounds (h : ¬ InBounds a) : checkAddress a k = .error ⟨.outOfBoundsAddress, a, k⟩ := if_neg h

/-- A read answers the stored Word inside the array and raises outside it. -/
theorem Memory.read_eq : m.read a k = if InBounds a then .ok (m.readWord a) else .error ⟨.outOfBoundsAddress, a, k⟩ := by
  unfold Memory.read
  by_cases h : InBounds a
  · rw [checkAddress_inBounds h, if_pos h]
  · rw [checkAddress_outOfBounds h, if_neg h]

/-- A write registers the pending write inside the array and raises outside it. -/
theorem Latch.memWrite_eq : l.memWrite a v =
    if InBounds a then .ok { l with write := some (a, v) } else .error ⟨.outOfBoundsAddress, a, .write⟩ := by
  unfold Latch.memWrite
  by_cases h : InBounds a
  · rw [checkAddress_inBounds h, if_pos h]
  · rw [checkAddress_outOfBounds h, if_neg h]

theorem State.fetch_eq : s.fetch =
    if InBounds s.pc then .ok (s.mem.readWord s.pc) else .error ⟨.outOfBoundsAddress, s.pc, .fetch⟩ := Memory.read_eq

theorem State.pointer_eq : s.pointer off =
    if InBounds (s.pcRelative off) then .ok (s.mem.readWord (s.pcRelative off))
    else .error ⟨.outOfBoundsAddress, s.pcRelative off, .read⟩ := Memory.read_eq

theorem State.loadFrom_eq : s.loadFrom r ea =
    if InBounds ea then .ok (s.latch.writeResult r (s.mem.readWord ea))
    else .error ⟨.outOfBoundsAddress, ea, .read⟩ := by
  unfold State.loadFrom
  rw [Memory.read_eq]
  by_cases h : InBounds ea
  · rw [if_pos h, if_pos h]
  · rw [if_neg h, if_neg h]

theorem State.storeTo_eq : s.storeTo r ea =
    if InBounds ea then .ok { s.latch with write := some (ea, s.reg r) }
    else .error ⟨.outOfBoundsAddress, ea, .write⟩ := Latch.memWrite_eq

theorem State.loadIndirect_eq : s.loadIndirect r off =
    if InBounds (s.pcRelative off) then s.loadFrom r (s.mem.readWord (s.pcRelative off))
    else .error ⟨.outOfBoundsAddress, s.pcRelative off, .read⟩ := by
  unfold State.loadIndirect
  rw [State.pointer_eq]
  by_cases h : InBounds (s.pcRelative off)
  · rw [if_pos h, if_pos h]
  · rw [if_neg h, if_neg h]

theorem State.storeIndirect_eq : s.storeIndirect r off =
    if InBounds (s.pcRelative off) then s.storeTo r (s.mem.readWord (s.pcRelative off))
    else .error ⟨.outOfBoundsAddress, s.pcRelative off, .read⟩ := by
  unfold State.storeIndirect
  rw [State.pointer_eq]
  by_cases h : InBounds (s.pcRelative off)
  · rw [if_pos h, if_pos h]
  · rw [if_neg h, if_neg h]

/-! ### The executor behind each meaning -/

/-- What the executor of an instruction builds or raises, before the commit or the fault path. -/
def effect : Instr → State → Except Raise Latch
  | .br n z p off, s => .ok (if branchTaken n z p s.current.cc then s.latch.setPc (s.pcRelative off) else s.latch)
  | .addReg dr sr1 sr2, s => s.operate dr (s.reg sr1 + s.reg sr2)
  | .addImm dr sr1 imm5, s => s.operate dr (s.reg sr1 + immediate imm5)
  | .ld dr off, s => s.loadFrom dr (s.pcRelative off)
  | .st sr off, s => s.storeTo sr (s.pcRelative off)
  | .jsr off, s => s.linkAndJump (s.pcRelative off)
  | .jsrr baseR, s => s.linkAndJump (s.reg baseR)
  | .andReg dr sr1 sr2, s => s.operate dr (s.reg sr1 &&& s.reg sr2)
  | .andImm dr sr1 imm5, s => s.operate dr (s.reg sr1 &&& immediate imm5)
  | .ldr dr baseR off, s => s.loadFrom dr (s.baseOffset baseR off)
  | .str sr baseR off, s => s.storeTo sr (s.baseOffset baseR off)
  | .rti, s => s.unimplemented Config.unimplPolicy
  | .not dr sr, s => s.operate dr (~~~ s.reg sr)
  | .ldi dr off, s => s.loadIndirect dr off
  | .sti sr off, s => s.storeIndirect sr off
  | .jmp baseR, s => s.linkAndJump (s.reg baseR)
  | .reserved13, s => s.unimplemented Config.unimplPolicy
  | .lea dr off, s => .ok (s.latch.setReg dr (s.pcRelative off))
  | .trap vector, s => .ok (if vector = Config.haltVector then s.latch.setPc Config.haltSentinel else s.latch)

theorem exec_eq_finish (i : Instr) (s : State) : exec i s = s.finish (effect i s) := by cases i <;> rfl

theorem State.finish_ok : s.finish (.ok l) = .next (s.commit l) := rfl
theorem State.finish_error : s.finish (.error raised) = .next (s.takeFault raised) := rfl

/-- All an executed instruction can do: commit what its executor built, or take the fault it raised. -/
theorem exec_cases {i : Instr} (h : exec i s = .next t) :
    (∃ l, effect i s = .ok l ∧ t = s.commit l) ∨ (∃ raised, effect i s = .error raised ∧ t = s.takeFault raised) := by
  rw [exec_eq_finish] at h
  cases hf : effect i s with
  | ok l => exact .inl ⟨l, rfl, by simpa [hf, State.finish_ok] using h.symm⟩
  | error raised => exact .inr ⟨raised, rfl, by simpa [hf, State.finish_error] using h.symm⟩

/-- What an instruction can raise: a data access out of bounds, and nothing under this hardware's policy besides. -/
theorem effect_raises {i : Instr} (h : effect i s = .error raised) :
    raised.kind = .outOfBoundsAddress ∧ ¬ InBounds raised.addr ∧ raised.access ≠ .fetch := by
  cases i <;>
    simp only [effect, State.operate, State.linkAndJump, State.unimplemented, Config.unimplPolicy, State.loadIndirect_eq,
      State.storeIndirect_eq, State.loadFrom_eq, State.storeTo_eq, reduceCtorEq] at h <;>
    (repeat' split at h) <;> simp_all <;> (subst h; simp_all)

/-- The memory an instruction leaves at its commit: as before, or with the Word of one register stored inside the array. -/
theorem effect_write {i : Instr} (h : effect i s = .ok l) :
    l.write = none ∨ ∃ a v, l.write = some (a, v) ∧ InBounds a := by
  cases i <;>
    simp only [effect, State.operate, State.linkAndJump, State.unimplemented, Config.unimplPolicy, State.loadIndirect_eq,
      State.storeIndirect_eq, State.loadFrom_eq, State.storeTo_eq, Except.ok.injEq] at h <;>
    (repeat' split at h) <;> simp_all <;> (subst h; simp_all)

/-! ### One step -/

/-- All a step can do, guards included (40_fetch_and_cycle.md R85 to R92). -/
theorem step_cases (h : step s = .next t) :
    (s.run ≠ .running ∧ t = s) ∨
    (s.run = .running ∧ s.pc = Config.haltSentinel ∧ t = s.halt) ∨
    (s.run = .running ∧ s.pc ≠ Config.haltSentinel ∧ ¬ InBounds s.pc ∧
      t = s.takeFault ⟨.outOfBoundsAddress, s.pc, .fetch⟩) ∨
    (s.run = .running ∧ s.pc ≠ Config.haltSentinel ∧ InBounds s.pc ∧ exec (decode (s.mem.readWord s.pc)) s = .next t) := by
  unfold step State.cycle at h
  cases hr : s.run with
  | halted => simp only [hr, Host.Outcome.next.injEq] at h; exact .inl ⟨by simp, h.symm⟩
  | faulted record => simp only [hr, Host.Outcome.next.injEq] at h; exact .inl ⟨by simp, h.symm⟩
  | running =>
    simp only [hr] at h
    by_cases hp : s.pc = Config.haltSentinel
    · rw [if_pos hp, Host.Outcome.next.injEq] at h
      exact .inr (.inl ⟨rfl, hp, h.symm⟩)
    · rw [if_neg hp] at h
      unfold State.fetchAndExecute at h
      rw [State.fetch_eq] at h
      by_cases hb : InBounds s.pc
      · rw [if_pos hb] at h
        exact .inr (.inr (.inr ⟨rfl, hp, hb, h⟩))
      · rw [if_neg hb] at h
        simp only [Host.Outcome.next.injEq] at h
        exact .inr (.inr (.inl ⟨rfl, hp, hb, h.symm⟩))

end Sys2Proof.Machine
end

