-- ==== Sys2Proof/Laws/PerInstr.lean ====
section
/-! SUPPORT. The per-instruction family `OpcodeBits`: bits 15..12 of an instruction's encoding are its opcode id
(30_encoding.md R66, R71). -/

namespace Sys2Proof.Laws.OpcodeBits

/-- The opcode id of an instruction (30_encoding.md R71). -/
def opcodeId : Instr → BitVec 4
  | .br _ _ _ _ => 0
  | .addReg _ _ _ => 1
  | .addImm _ _ _ => 1
  | .ld _ _ => 2
  | .st _ _ => 3
  | .jsr _ => 4
  | .jsrr _ => 4
  | .andReg _ _ _ => 5
  | .andImm _ _ _ => 5
  | .ldr _ _ _ => 6
  | .str _ _ _ => 7
  | .rti => 8
  | .not _ _ => 9
  | .ldi _ _ => 10
  | .sti _ _ => 11
  | .jmp _ => 12
  | .reserved13 => 13
  | .lea _ _ => 14
  | .trap _ => 15

/-- Bits 15..12 of the encoding are the opcode id. -/
def Statement (i : Instr) : Prop := (encode i).extractLsb' 12 4 = opcodeId i

/-- The top four bits of a Word that begins with a four-bit field. -/
theorem top_append (op : BitVec 4) (rest : BitVec 12) : (op ++ rest : BitVec 16).extractLsb' 12 4 = op := by
  ext i hi
  simp only [BitVec.getElem_extractLsb', BitVec.getLsbD_append]
  rw [if_neg (by omega), show 12 + i - 12 = i by omega, BitVec.getLsbD_eq_getElem hi]

theorem br (n z p : Bool) (o : Int) : Statement (.br n z p o) := by
  simp only [Statement, encode, opcodeId, BitVec.append_assoc, BitVec.cast_eq]
  exact top_append _ _

theorem addReg (dr sr1 sr2 : Reg) : Statement (.addReg dr sr1 sr2) := by
  simp only [Statement, encode, opcodeId, BitVec.append_assoc, BitVec.cast_eq]
  exact top_append _ _

theorem addImm (dr sr1 : Reg) (imm5 : Int) : Statement (.addImm dr sr1 imm5) := by
  simp only [Statement, encode, opcodeId, BitVec.append_assoc, BitVec.cast_eq]
  exact top_append _ _

theorem ld (dr : Reg) (o : Int) : Statement (.ld dr o) := by
  simp only [Statement, encode, opcodeId, BitVec.append_assoc, BitVec.cast_eq]
  exact top_append _ _

theorem st (sr : Reg) (o : Int) : Statement (.st sr o) := by
  simp only [Statement, encode, opcodeId, BitVec.append_assoc, BitVec.cast_eq]
  exact top_append _ _

theorem jsr (o : Int) : Statement (.jsr o) := by
  simp only [Statement, encode, opcodeId, BitVec.append_assoc, BitVec.cast_eq]
  exact top_append _ _

theorem jsrr (baseR : Reg) : Statement (.jsrr baseR) := by
  simp only [Statement, encode, opcodeId, BitVec.append_assoc, BitVec.cast_eq]
  exact top_append _ _

theorem andReg (dr sr1 sr2 : Reg) : Statement (.andReg dr sr1 sr2) := by
  simp only [Statement, encode, opcodeId, BitVec.append_assoc, BitVec.cast_eq]
  exact top_append _ _

theorem andImm (dr sr1 : Reg) (imm5 : Int) : Statement (.andImm dr sr1 imm5) := by
  simp only [Statement, encode, opcodeId, BitVec.append_assoc, BitVec.cast_eq]
  exact top_append _ _

theorem ldr (dr baseR : Reg) (o : Int) : Statement (.ldr dr baseR o) := by
  simp only [Statement, encode, opcodeId, BitVec.append_assoc, BitVec.cast_eq]
  exact top_append _ _

theorem str (sr baseR : Reg) (o : Int) : Statement (.str sr baseR o) := by
  simp only [Statement, encode, opcodeId, BitVec.append_assoc, BitVec.cast_eq]
  exact top_append _ _

theorem rti : Statement .rti := rfl

theorem not (dr sr : Reg) : Statement (.not dr sr) := by
  simp only [Statement, encode, opcodeId, BitVec.append_assoc, BitVec.cast_eq]
  exact top_append _ _

theorem ldi (dr : Reg) (o : Int) : Statement (.ldi dr o) := by
  simp only [Statement, encode, opcodeId, BitVec.append_assoc, BitVec.cast_eq]
  exact top_append _ _

theorem sti (sr : Reg) (o : Int) : Statement (.sti sr o) := by
  simp only [Statement, encode, opcodeId, BitVec.append_assoc, BitVec.cast_eq]
  exact top_append _ _

theorem jmp (baseR : Reg) : Statement (.jmp baseR) := by
  simp only [Statement, encode, opcodeId, BitVec.append_assoc, BitVec.cast_eq]
  exact top_append _ _

theorem reserved13 : Statement .reserved13 := rfl

theorem lea (dr : Reg) (o : Int) : Statement (.lea dr o) := by
  simp only [Statement, encode, opcodeId, BitVec.append_assoc, BitVec.cast_eq]
  exact top_append _ _

theorem trap (vector : Nat) : Statement (.trap vector) := by
  simp only [Statement, encode, opcodeId, BitVec.append_assoc, BitVec.cast_eq]
  exact top_append _ _

end Sys2Proof.Laws.OpcodeBits
end

