-- ==== Sys2Proof/Laws/Run.lean ====
section
/-! SUPPORT. The equations of a run: one step of `ReachesIn` and of `run_for`, so that no proof unfolds the host's `run`. -/

namespace Sys2Proof.Machine

variable {s t u : State} {n : Nat}

theorem State.reachesIn_zero : s.ReachesIn 0 t ↔ s = t := by
  show Host.Outcome.next s = Host.Outcome.next t ↔ s = t
  exact ⟨fun h => Host.Outcome.next.inj h, fun h => by rw [h]⟩

theorem State.reachesIn_succ (h : step s = .next u) : s.ReachesIn (n + 1) t ↔ u.ReachesIn n t := by
  unfold State.ReachesIn
  have : core.run (n + 1) s = core.run n u := by
    have hs : core.step s = .next u := h
    simp only [Host.Core.run, hs]
  rw [this]

theorem State.reachesIn_unique (ht : s.ReachesIn n t) (hu : s.ReachesIn n u) : t = u :=
  Host.Outcome.next.inj (ht.symm.trans hu)

theorem State.stepCommand_next (h : step s = .next t) : s.stepCommand = .next (t, t.result) := by
  unfold State.stepCommand
  rw [h]

theorem State.runFor_zero : s.runFor 0 = .next (s, .ok) := rfl

/-- A call that commits goes on; a call that reports anything else is the last. -/
theorem State.runFor_succ (h : step s = .next t) :
    s.runFor (n + 1) = if t.result = .ok then t.runFor n else .next (t, t.result) := by
  rw [State.runFor, State.stepCommand_next h]
  cases hr : t.result <;> simp

@[simp] theorem State.result_ok : t.result = .ok ↔ t.run = .running := by
  cases hr : t.run <;> simp [State.result, hr]

/-- A stopped engine steps to itself. -/
theorem step_of_stopped (h : s.run ≠ .running) : step s = .next s := by
  unfold step State.cycle
  cases hr : s.run <;> simp_all

end Sys2Proof.Machine
end

