-- ==== Sys2Proof/Tests/Slice0.lean ====
section
/-! SUPPORT. Tests and witnesses. Expected results are the spec's own: words and vectors of 95_test_vectors.md (named V<n>,
W<n>, S<n>, X<n>, F<n>, H<n>) and the examples of the instruction rules. A witness shows a concrete state and operands that meet
the hypotheses of the statement it is named after, at the boundary of each clause's range. -/

namespace Sys2Proof.Tests

open Sys2Proof.Machine Sys2Proof.Claims

/-! ### Well-formedness: one ill-formed term for each check -/

theorem test_wellFormed_refuses_imm5 :
    ¬ (Instr.addImm 0 0 16).WellFormed ∧ ¬ (Instr.addImm 0 0 (-17)).WellFormed ∧ ¬ (Instr.andImm 0 0 16).WellFormed := by
  decide

theorem test_wellFormed_refuses_offset6 :
    ¬ (Instr.ldr 0 0 32).WellFormed ∧ ¬ (Instr.ldr 0 0 (-33)).WellFormed ∧ ¬ (Instr.str 0 0 32).WellFormed := by decide

theorem test_wellFormed_refuses_pcOffset9 :
    ¬ (Instr.br true true true 256).WellFormed ∧ ¬ (Instr.ld 0 (-257)).WellFormed ∧ ¬ (Instr.st 0 256).WellFormed ∧
    ¬ (Instr.ldi 0 256).WellFormed ∧ ¬ (Instr.sti 0 256).WellFormed ∧ ¬ (Instr.lea 0 256).WellFormed := by decide

theorem test_wellFormed_refuses_pcOffset11 : ¬ (Instr.jsr 1024).WellFormed ∧ ¬ (Instr.jsr (-1025)).WellFormed := by decide

theorem test_wellFormed_refuses_trapvect8 : ¬ (Instr.trap 256).WellFormed := by decide

/-! ### Decoding: words written out from the layouts of 30_encoding.md R70, as the examples of the rules give them -/

theorem test_decode_br : decode 0b0000001111111101#16 = .br false false true (-3) := by decide
theorem test_decode_br_flags : decode 0b0000110000000010#16 = .br true true false 2 := by decide
theorem test_decode_addReg : decode 0b0001011001000010#16 = .addReg 3 1 2 := by decide
theorem test_decode_addReg_ignored : decode 0b0001011001011000#16 = .addReg 3 1 0 := by decide
theorem test_decode_addImm : decode 0b0001000000111111#16 = .addImm 0 0 (-1) := by decide
theorem test_decode_ld : decode 0b0010001000000010#16 = .ld 1 2 := by decide
theorem test_decode_st : decode 0b0011010000000010#16 = .st 2 2 := by decide
theorem test_decode_jsr : decode 0b0100110000000000#16 = .jsr (-1024) := by decide
theorem test_decode_jsrr : decode 0b0100000010000000#16 = .jsrr 2 := by decide
theorem test_decode_jsrr_ignored : decode 0b0100011010111111#16 = .jsrr 2 := by decide
theorem test_decode_andReg : decode 0b0101011001000010#16 = .andReg 3 1 2 := by decide
theorem test_decode_andImm : decode 0b0101001001110000#16 = .andImm 1 1 (-16) := by decide
theorem test_decode_ldr : decode 0b0110000001111100#16 = .ldr 0 1 (-4) := by decide
theorem test_decode_str : decode 0b0111011000000001#16 = .str 3 0 1 := by decide
theorem test_decode_rti : decode 0b1000000000000000#16 = .rti := by decide
theorem test_decode_not : decode 0b1001010001111111#16 = .not 2 1 := by decide
theorem test_decode_not_ignored : decode 0b1001010001000000#16 = .not 2 1 := by decide
theorem test_decode_ldi : decode 0b1010001000000000#16 = .ldi 1 0 := by decide
theorem test_decode_sti : decode 0b1011011000000111#16 = .sti 3 7 := by decide
theorem test_decode_jmp : decode 0b1100000111000000#16 = .jmp 7 := by decide
theorem test_decode_reserved13 : decode 0b1101111111111111#16 = .reserved13 := by decide
theorem test_decode_lea : decode 0b1110000111111101#16 = .lea 0 (-3) := by decide
theorem test_decode_trap : decode 0b1111000100100101#16 = .trap 0x25 := by decide

theorem test_decodeBytes_truncated : decodeBytes [0x25#8] = .error .truncated ∧ decodeBytes [] = .error .truncated := by decide
theorem test_decodeTableWord : decodeTableWord 16 0x1642 = some (.addReg 3 1 2) ∧ decodeTableWord 16 0xF025 = some (.trap 0x25) := by
  decide

/-- 30_encoding.md R82: the assembler's words, with ones in NOT's ignored bits and zeros elsewhere. -/
theorem test_encode : encode (.not 2 1) = 0x947F#16 ∧ encode (.jmp 7) = 0xC1C0#16 ∧ encode (.jsrr 2) = 0x4080#16 ∧
    encode (.trap 0x25) = 0xF025#16 ∧ encode (.br true true true (-1)) = 0x0FFF#16 := by decide

/-- X2, X3, X6, X7 and X8 of 95_test_vectors.md. -/
theorem test_extractField : extractField 0x0010#16 0 4 true = 0xFFF0#16 ∧ extractField 0x001F#16 0 4 false = 0x001F#16 ∧
    extractField 0x0100#16 0 8 true = 0xFF00#16 ∧ extractField 0x0400#16 0 10 true = 0xFC00#16 ∧
    extractField 0xF125#16 0 7 false = 0x0025#16 := by decide

/-! ### One step: at most two vectors an instruction -/

/-- A RUNNING engine at `pc` whose memory holds `ir` there and the listed words. -/
def engine (pc ir : Word) (regs : Vector Word 8) (cc : CC) (words : List (Word × Word)) : State where
  current := { pc := pc, regs := regs, cc := cc }
  mem := words.foldl (fun m w => m.writeWord w.1 w.2) (Memory.writeWord [] pc ir)
  run := .running
  cycles := 0

/-- The step has a next state and the check holds of it. -/
def after (s : State) (check : State → Bool) : Bool :=
  match step s with
  | .next t => check t
  | .fault _ => false
  | .refused _ => false

/-- The step is the fault of a vector, written Faulted(addr, access, pc) there, and changes nothing else. -/
def faults (s : State) (addr : Word) (access : Access) : Bool :=
  after s fun t => decide (t = { s with run := .faulted ⟨.outOfBoundsAddress, addr, access, s.pc⟩ })

theorem test_V1_add : after (engine 0x3000 0x1642 #v[0, 0x7FFF, 1, 0, 0, 0, 0, 0] .zero [])
    (fun t => t.reg 3 == 0x8000#16 && t.current.cc == .neg && t.pc == 0x3001#16 && t.cycles == 1) = true := by decide
theorem test_V3_add_doubles : after (engine 0x3000 0x1241 #v[0, 0x4000, 0, 0, 0, 0, 0, 0] .zero [])
    (fun t => t.reg 1 == 0x8000#16 && t.current.cc == .neg) = true := by decide
theorem test_V4_addImm : after (engine 0x3000 0x1070 #v[9, 0x0010, 0, 0, 0, 0, 0, 0] .pos [])
    (fun t => t.reg 0 == 0x0000#16 && t.current.cc == .zero) = true := by decide
theorem test_V5_addImm : after (engine 0x3000 0x102F #v[0x7FF1, 0, 0, 0, 0, 0, 0, 0] .zero [])
    (fun t => t.reg 0 == 0x8000#16 && t.current.cc == .neg) = true := by decide
theorem test_V7_and : after (engine 0x3000 0x5642 #v[0, 0x00FF, 0x0F0F, 0, 0, 0, 0, 0] .zero [])
    (fun t => t.reg 3 == 0x000F#16 && t.current.cc == .pos) = true := by decide
theorem test_V8_andImm : after (engine 0x3000 0x5270 #v[0, 0x1234, 0, 0, 0, 0, 0, 0] .zero [])
    (fun t => t.reg 1 == 0x1230#16 && t.current.cc == .pos) = true := by decide
theorem test_V10_andImm : after (engine 0x3000 0x54A0 #v[0, 0, 0xFFFF, 0, 0, 0, 0, 0] .neg [])
    (fun t => t.reg 2 == 0x0000#16 && t.current.cc == .zero) = true := by decide
theorem test_V12_not : after (engine 0x3000 0x927F #v[0, 0, 0, 0, 0, 0, 0, 0] .zero [])
    (fun t => t.reg 1 == 0xFFFF#16 && t.current.cc == .neg) = true := by decide
theorem test_V13_not : after (engine 0x3000 0x9440 #v[0, 0x8000, 0, 0, 0, 0, 0, 0] .zero [])
    (fun t => t.reg 2 == 0x7FFF#16 && t.current.cc == .pos) = true := by decide
theorem test_V15_ld_own_word : after (engine 0x3000 0x21FF #v[0, 0, 0, 0, 0, 0, 0, 0] .zero [])
    (fun t => t.reg 0 == 0x21FF#16 && t.current.cc == .pos) = true := by decide
theorem test_V16_ld_faults : faults (engine 0x7FFF 0x2000 #v[0, 0, 0, 0, 0, 0, 0, 0] .zero []) 0x8000 .read = true := by decide
theorem test_V18_st_own_word : after (engine 0x3000 0x33FF #v[0, 0x1234, 0, 0, 0, 0, 0, 0] .pos [])
    (fun t => t.mem.readWord 0x3000 == 0x1234#16 && t.current.cc == .pos) = true := by decide
theorem test_V19_st_faults : faults (engine 0x7FFF 0x3000 #v[0x5555, 0, 0, 0, 0, 0, 0, 0] .zero []) 0x8000 .write = true := by
  decide
theorem test_V21_ldr_base_is_dr : after (engine 0x3000 0x6241 #v[0, 0x3100, 0, 0, 0, 0, 0, 0] .zero [(0x3101, 0xBEEF)])
    (fun t => t.reg 1 == 0xBEEF#16 && t.current.cc == .neg) = true := by decide
theorem test_V22_ldr_wraps : after (engine 0x3000 0x6045 #v[0, 0xFFFF, 0, 0, 0, 0, 0, 0] .zero [(0x0004, 0x0777)])
    (fun t => t.reg 0 == 0x0777#16 && t.current.cc == .pos) = true := by decide
theorem test_V24_str : after (engine 0x3000 0x7601 #v[0x3008, 0, 0, 0x002A, 0, 0, 0, 0] .zero [])
    (fun t => t.mem.readWord 0x3009 == 0x002A#16 && t.current.cc == .zero) = true := by decide
theorem test_V26_str_faults : faults (engine 0x3000 0x7040 #v[0, 0x8000, 0, 0, 0, 0, 0, 0] .zero []) 0x8000 .write = true := by
  decide
theorem test_V27_ldi : after (engine 0x2FFF 0xA200 #v[0, 0, 0, 0, 0, 0, 0, 0] .zero [(0x3000, 0x4000), (0x4000, 0x002A)])
    (fun t => t.reg 1 == 0x002A#16 && t.current.cc == .pos) = true := by decide
theorem test_V28_ldi_faults : faults (engine 0x3000 0xA001 #v[0, 0, 0, 0, 0, 0, 0, 0] .zero [(0x3002, 0x9000)]) 0x9000 .read =
    true := by decide
theorem test_V33_sti_own_pointer : after (engine 0x3000 0xB601 #v[0, 0, 0, 0x002A, 0, 0, 0, 0] .zero [(0x3002, 0x3002)])
    (fun t => t.mem.readWord 0x3002 == 0x002A#16) = true := by decide
theorem test_V32_sti_faults : faults (engine 0x3000 0xB601 #v[0, 0, 0, 0x002A, 0, 0, 0, 0] .zero [(0x3002, 0x8000)]) 0x8000
    .write = true := by decide
theorem test_V35_lea_wraps : after (engine 0x0001 0xE1FD #v[0, 0, 0, 0, 0, 0, 0, 0] .pos [])
    (fun t => t.reg 0 == 0xFFFF#16 && t.current.cc == .pos && t.pc == 0x0002#16) = true := by decide
theorem test_V37_br_taken : after (engine 0x3004 0x03FD #v[0, 0, 0, 0, 0, 0, 0, 0] .pos []) (fun t => t.pc == 0x3002#16) =
    true := by decide
theorem test_V38_br_not_taken : after (engine 0x3004 0x03FD #v[0, 0, 0, 0, 0, 0, 0, 0] .zero []) (fun t => t.pc == 0x3005#16) =
    true := by decide
theorem test_V45_jsr : after (engine 0x3000 0x4C00 #v[0, 0, 0, 0, 0, 0, 0, 0] .zero [])
    (fun t => t.pc == 0x2C01#16 && t.reg 7 == 0x3001#16) = true := by decide
theorem test_V47_jsrr_r7 : after (engine 0x3000 0x41C0 #v[0, 0, 0, 0, 0, 0, 0, 0x3200] .zero [])
    (fun t => t.pc == 0x3200#16 && t.reg 7 == 0x3001#16) = true := by decide
theorem test_V50_ret : after (engine 0x3007 0xC1C0 #v[0, 0, 0, 0, 0, 0, 0, 0x3002] .pos [])
    (fun t => t.pc == 0x3002#16 && t.reg 7 == 0x3008#16) = true := by decide
theorem test_V54_trap_halt : after (engine 0x3000 0xF125 #v[0, 0, 0, 0, 0, 0, 0, 0x1111] .neg [])
    (fun t => t.pc == 0x0000#16 && t.reg 7 == 0x1111#16 && t.run == .running && t.cycles == 1) = true := by decide
theorem test_V53_trap_out : after (engine 0x3000 0xF021 #v[0, 0, 0, 0, 0, 0, 0, 0x1111] .neg [])
    (fun t => t.pc == 0x3001#16 && t.reg 7 == 0x1111#16) = true := by decide
theorem test_V56_rti : after (engine 0x3000 0x8000 #v[0, 0, 0, 0, 0, 0, 0, 0] .pos [])
    (fun t => t.pc == 0x3001#16 && t.current.cc == .pos) = true := by decide
theorem test_V57_reserved13 : after (engine 0x3000 0xDFFF #v[0, 0, 0, 0, 0, 0, 0, 0] .pos [])
    (fun t => t.pc == 0x3001#16 && t.current.cc == .pos) = true := by decide

/-! ### The driver and the host -/

theorem test_F2_fetch_faults :
    faults (State.launch Config.regInit 0xFFFF []) 0xFFFF .fetch = true := by decide
theorem test_F4_entry_zero_halts :
    after (State.launch Config.regInit 0x0000 []) (fun t => t.isHalted && t.cycleCount == 0) = true := by decide
theorem test_H1_set_then_get : (State.reset.setMemory 0x3000 0x1234).toOption.map (fun t => (t.getMemory 0x3000).toOption) =
    some (some 0x1234#16) := by decide
theorem test_H3_get_refused : State.reset.getMemory 0xFFFF = .error (.addressOutOfRange 0xFFFF) := by decide
theorem test_H6_runFor_zero : State.reset.runFor 0 = .next (State.reset, .ok) := by rfl

/-! ### Witnesses: each meets the hypotheses of the statement it is named after -/

/-- The clauses at the last address of the array and past it. -/
theorem witness_LaunchPlacesTheImage :
    (0x7FFE#16).toNat + [0x1234#16, 0xF025#16].length ≤ 32768 ∧ [0x1234#16, 0xF025#16] ≠ [] ∧
    32768 < (0x7FFF#16).toNat + [0x1234#16, 0xF025#16].length := by decide

theorem witness_HostMemoryCommandsReadAndWriteOneWord : 32767 < 32768 ∧ 32766 < 32768 ∧ 32766 ≠ 32767 := by decide

theorem witness_HostAddressesOutOfRangeAreRefused : 32768 ≤ 32768 := by decide

theorem witness_EqualReadsMeanEqualMemories : Memory.wf [(0, 0x25#8), (65535, 0x01#8)] ∧
    ∀ a : Word, a.toNat < 32768 → Memory.readWord [(0, 0x25#8), (65535, 0x01#8)] a =
      Memory.readWord [(0, 0x25#8), (65535, 0x01#8)] a := ⟨by decide, fun _ _ => rfl⟩

/-- One field whose top bit is 1 and one whose top bit is 0, up to the widest. -/
theorem witness_ExtractFieldIsTheValueOfTheField :
    0 ≤ 15 ∧ 15 ≤ 15 ∧ (0x8000#16).getLsbD 15 = true ∧ (0x7FFF#16).getLsbD 15 = false := by decide

theorem witness_EveryWordMatchesExactlyOneRow : (0xF800#16, 0x4000#16) ∈ tableRows := by decide

theorem witness_DecodeInvertsEncode :
    (Instr.addImm 7 0 (-16)).WellFormed ∧ (Instr.jsr 1023).WellFormed ∧ (Instr.br true false true (-256)).WellFormed ∧
    (Instr.ldr 1 2 31).WellFormed ∧ (Instr.trap 255).WellFormed ∧ Instr.reserved13.WellFormed := by decide

/-- Each case of the flag table at its boundaries, and an ADD that commits. -/
theorem witness_SetccSetsExactlyOneFlag : (∃ t, callsSetcc (.addReg 1 1 1) = true ∧ State.reset.run = .running ∧
      exec (.addReg 1 1 1) State.reset = .next t ∧ t.run = .running) ∧
    (0x0000#16) = 0x0000#16 ∧ (0x0001#16) ≠ 0x0000#16 ∧ (0x0001#16).getLsbD 15 = false ∧
    (0x7FFF#16).getLsbD 15 = false ∧ (0x8000#16).getLsbD 15 = true := ⟨⟨_, rfl, rfl, rfl, rfl⟩, by decide⟩

theorem witness_AddRegisterResult : opcodeOf 0x1658 = 0x1#4 ∧ (0x1658#16).getLsbD 5 = false := by decide
theorem witness_AddImmediateResult : opcodeOf 0x103F = 0x1#4 ∧ (0x103F#16).getLsbD 5 = true := by decide
theorem witness_AndRegisterResult : opcodeOf 0x5642 = 0x5#4 ∧ (0x5642#16).getLsbD 5 = false := by decide
theorem witness_AndImmediateResult : opcodeOf 0x54A0 = 0x5#4 ∧ (0x54A0#16).getLsbD 5 = true := by decide
theorem witness_NotResult : opcodeOf 0x9440 = 0x9#4 := by decide

theorem witness_RegisterAndImmediateFormsAgree :
    (engine 0x3000 0x1642 #v[0, 0, 0xFFF0, 0, 0, 0, 0, 0] .zero []).reg 2 = sext16 0b10000#5 := by decide

/-- The last address of the array and the first past it. -/
theorem witness_LdResult : opcodeOf 0x2000 = 0x2#4 ∧
    (0x7FFF#16 = (engine 0x7FFE 0x2000 #v[0, 0, 0, 0, 0, 0, 0, 0] .zero []).pc + 1 + sext16 (offset9Of 0x2000) ∧ (0x7FFF#16).toNat < 32768) ∧
    (0x8000#16 = (engine 0x7FFF 0x2000 #v[0, 0, 0, 0, 0, 0, 0, 0] .zero []).pc + 1 + sext16 (offset9Of 0x2000) ∧ 32768 ≤ (0x8000#16).toNat) := by
  decide

theorem witness_LdrResult : opcodeOf 0x6045 = 0x6#4 ∧
    (0x7FFF#16 = (engine 0x3000 0x6045 #v[0, 0x7FFA, 0, 0, 0, 0, 0, 0] .zero []).reg (reg8 0x6045) + sext16 (offset6Of 0x6045) ∧
      (0x7FFF#16).toNat < 32768) ∧
    (0x8000#16 = (engine 0x3000 0x6045 #v[0, 0x7FFB, 0, 0, 0, 0, 0, 0] .zero []).reg (reg8 0x6045) + sext16 (offset6Of 0x6045) ∧
      32768 ≤ (0x8000#16).toNat) := by decide

/-- Pointer address and pointer inside, pointer outside, pointer address outside. -/
theorem witness_LdiResult : opcodeOf 0xA000 = 0xA#4 ∧
    (let s := engine 0x7FFE 0xA000 #v[0, 0, 0, 0, 0, 0, 0, 0] .zero [(0x7FFF, 0x7FFF)]
     0x7FFF#16 = s.pc + 1 + sext16 (offset9Of 0xA000) ∧ 0x7FFF#16 = s.mem.readWord 0x7FFF#16) ∧
    (let s := engine 0x7FFE 0xA000 #v[0, 0, 0, 0, 0, 0, 0, 0] .zero [(0x7FFF, 0x8000)]
     0x7FFF#16 = s.pc + 1 + sext16 (offset9Of 0xA000) ∧ 0x8000#16 = s.mem.readWord 0x7FFF#16) ∧
    (let s := engine 0x7FFF 0xA000 #v[0, 0, 0, 0, 0, 0, 0, 0] .zero []
     0x8000#16 = s.pc + 1 + sext16 (offset9Of 0xA000) ∧ 0x0000#16 = s.mem.readWord 0x8000#16) ∧
    (0x7FFF#16).toNat < 32768 ∧ 32768 ≤ (0x8000#16).toNat := by decide

theorem witness_StResult : opcodeOf 0x3000 = 0x3#4 ∧
    ((engine 0x7FFE 0x3000 #v[0, 0, 0, 0, 0, 0, 0, 0] .zero []).pcRelative (offset9Of 0x3000).toInt = 0x7FFF#16 ∧ (0x7FFF#16).toNat < 32768) ∧
    ((engine 0x7FFF 0x3000 #v[0, 0, 0, 0, 0, 0, 0, 0] .zero []).pcRelative (offset9Of 0x3000).toInt = 0x8000#16 ∧ 32768 ≤ (0x8000#16).toNat) := by
  decide

theorem witness_StrResult : opcodeOf 0x7045 = 0x7#4 ∧
    ((engine 0x3000 0x7045 #v[0, 0x7FFA, 0, 0, 0, 0, 0, 0] .zero []).baseOffset (reg8 0x7045) (offset6Of 0x7045).toInt =
      0x7FFF#16 ∧ (0x7FFF#16).toNat < 32768) ∧
    ((engine 0x3000 0x7045 #v[0, 0x7FFB, 0, 0, 0, 0, 0, 0] .zero []).baseOffset (reg8 0x7045) (offset6Of 0x7045).toInt =
      0x8000#16 ∧ 32768 ≤ (0x8000#16).toNat) := by decide

theorem witness_StiResult : opcodeOf 0xB000 = 0xB#4 ∧
    (let s := engine 0x7FFE 0xB000 #v[0, 0, 0, 0, 0, 0, 0, 0] .zero [(0x7FFF, 0x7FFF)]
     s.pcRelative (offset9Of 0xB000).toInt = 0x7FFF#16 ∧ s.mem.readWord 0x7FFF#16 = 0x7FFF#16) ∧
    (let s := engine 0x7FFE 0xB000 #v[0, 0, 0, 0, 0, 0, 0, 0] .zero [(0x7FFF, 0x8000)]
     s.pcRelative (offset9Of 0xB000).toInt = 0x7FFF#16 ∧ s.mem.readWord 0x7FFF#16 = 0x8000#16) ∧
    (let s := engine 0x7FFF 0xB000 #v[0, 0, 0, 0, 0, 0, 0, 0] .zero []
     s.pcRelative (offset9Of 0xB000).toInt = 0x8000#16 ∧ s.mem.readWord 0x8000#16 = 0x0000#16) ∧
    (0x7FFF#16).toNat < 32768 ∧ 32768 ≤ (0x8000#16).toNat := by decide

theorem witness_LeaResult : opcodeOf 0xE1FD = 0xE#4 := by decide

/-- The branch taken and not taken. -/
theorem witness_BrResult : opcodeOf 0x03FD = 0x0#4 ∧
    ((0x03FD#16).getLsbD 9 = true ∧ (engine 0x3004 0x03FD #v[0, 0, 0, 0, 0, 0, 0, 0] .pos []).current.cc.p = true) ∧
    (let cc := (engine 0x3004 0x03FD #v[0, 0, 0, 0, 0, 0, 0, 0] .zero []).current.cc
     ¬ ((0x03FD#16).getLsbD 11 = true ∧ cc.n = true ∨ (0x03FD#16).getLsbD 10 = true ∧ cc.z = true ∨
        (0x03FD#16).getLsbD 9 = true ∧ cc.p = true)) := by decide

theorem witness_JsrResult : opcodeOf 0x4802 = 0x4#4 ∧ (0x4802#16).getLsbD 11 = true := by decide
theorem witness_JsrrResult : opcodeOf 0x41C0 = 0x4#4 ∧ (0x41C0#16).getLsbD 11 = false := by decide
theorem witness_JmpResult : opcodeOf 0xC1C0 = 0xC#4 := by decide
theorem witness_TrapResult : opcodeOf 0xF125 = 0xF#4 ∧ vector8Of 0xF125 = 0x25#8 ∧ opcodeOf 0xF021 = 0xF#4 ∧
    vector8Of 0xF021 ≠ 0x25#8 := by decide
theorem witness_UnimplementedOpcodesAreNoOps : opcodeOf 0x8000 = 0x8#4 ∧ opcodeOf 0xDFFF = 0xD#4 := by decide

/-- A step that enters FAULTED: V16. -/
theorem witness_FaultsArePrecise :
    let s := engine 0x7FFF 0x2000 #v[0, 0, 0, 0, 0, 0, 0, 0] .zero []
    let record : FaultRecord := ⟨.outOfBoundsAddress, 0x8000, .read, 0x7FFF⟩
    s.run = .running ∧ s.pc ≠ 0x0000#16 ∧ step s = .next { s with run := .faulted record } ∧
      ({ s with run := .faulted record } : State).IsFaulted := ⟨rfl, by decide, by rfl, ⟨_, rfl⟩⟩

theorem witness_UnimplementedOpcodePolicies :
    let s := engine 0x7FFF 0x2000 #v[0, 0, 0, 0, 0, 0, 0, 0] .zero []
    let record : FaultRecord := ⟨.outOfBoundsAddress, 0x8000, .read, 0x7FFF⟩
    s.run = .running ∧ step s = .next { s with run := .faulted record } := ⟨rfl, by rfl⟩

/-- Its three clauses: a TRAP, an ADD that commits, and an ADD again, which is no branch. -/
theorem witness_OnlySetccWritesAndOnlyBrReadsTheFlags :
    let s := engine 0x3000 0x1241 #v[0, 0, 0, 0, 0, 0, 0, 0] .zero []
    (∃ t, exec (.trap 0x21) s = .next t ∧ callsSetcc (.trap 0x21) = false) ∧
    (∃ t, s.run = .running ∧ exec (.addReg 1 1 1) s = .next t ∧ t.run = .running ∧ callsSetcc (.addReg 1 1 1) = true) ∧
    (∃ t, isBranch (.addReg 1 1 1) = false ∧ exec (.addReg 1 1 1) s = .next t) :=
  ⟨⟨_, rfl, rfl⟩, ⟨_, rfl, rfl, rfl, rfl⟩, ⟨_, rfl, rfl⟩⟩

theorem witness_OnlyTheTableRegisterIsWritten :
    ∃ t, exec (.addReg 1 2 3) State.reset = .next t ∧ registerWritten (.addReg 1 2 3) ≠ some 2 := ⟨_, rfl, by decide⟩

/-- Two states that differ in a register the instruction does not read. -/
theorem witness_OnlyTheTableRegistersAreRead :
    let s := engine 0x3000 0x1241 #v[0, 0, 0, 0, 0, 0, 0, 0] .zero []
    let u := engine 0x3000 0x1241 #v[0, 0, 0, 0, 0, 0x5555, 0, 0] .zero []
    s.run = .running ∧ u.run = .running ∧ u.pc = s.pc ∧ u.current.cc = s.current.cc ∧ u.mem = s.mem ∧
      (∀ r ∈ registersRead (.addReg 1 1 1), u.reg r = s.reg r) ∧ ∃ t, exec (.addReg 1 1 1) s = .next t ∧ t.run = .running :=
  ⟨rfl, rfl, rfl, rfl, rfl, by decide, _, rfl, rfl⟩

theorem witness_HiddenStateIsNotRead : ∃ t, exec (.addReg 1 2 3) State.reset = .next t := ⟨_, rfl⟩

/-- An instruction Word that commits, and one that faults. -/
theorem witness_NextPcFollowsTheTable :
    (∃ t, State.reset.run = .running ∧ exec (decode 0x1241) State.reset = .next t ∧ t.run = .running) ∧
    (∃ t, (engine 0x7FFF 0x2000 #v[0, 0, 0, 0, 0, 0, 0, 0] .zero []).run = .running ∧
      exec (decode 0x2000) (engine 0x7FFF 0x2000 #v[0, 0, 0, 0, 0, 0, 0, 0] .zero []) = .next t ∧ t.run ≠ .running) :=
  ⟨⟨_, rfl, rfl, rfl⟩, ⟨_, rfl, rfl, by decide⟩⟩

/-- A form that stores, and one that stores nothing. -/
theorem witness_EveryInstructionStoresAtMostOneWord :
    (∃ t, exec (.str 3 0 1) State.reset = .next t ∧ storeOf (.str 3 0 1) State.reset = some (0x0001#16, 3)) ∧
    (∃ t, exec (.addReg 1 2 3) State.reset = .next t ∧ storeOf (.addReg 1 2 3) State.reset = none) :=
  ⟨⟨_, rfl, by decide⟩, ⟨_, rfl, rfl⟩⟩

/-- ST R1, #0 at 0x3001 stores to 0x3002, where the PC then is: P5 of 95_test_vectors.md. -/
theorem witness_StoredWordIsFetchedNext :
    let s := engine 0x3001 0x3200 #v[0, 0xF025, 0, 0, 0, 0, 0, 0] .neg []
    Executes s ∧ storeOf (decode (s.mem.readWord s.pc)) s = some (0x3002#16, 1) ∧
      after s (fun t => t.run == .running && t.pc == 0x3002#16) = true := by
  refine ⟨⟨rfl, by decide, by decide⟩, by decide, by decide⟩

theorem witness_StepRunsTheDecodedInstruction :
    Executes (engine 0x0001 0x1241 #v[0, 0, 0, 0, 0, 0, 0, 0] .zero []) ∧ Executes (engine 0x7FFF 0x1241 #v[0, 0, 0, 0, 0, 0, 0, 0] .zero []) :=
  ⟨⟨rfl, by decide, by decide⟩, ⟨rfl, by decide, by decide⟩⟩

theorem witness_StoppedEngineIgnoresSteps :
    ({ State.reset with run := .halted } : State).run = .halted ∧
    ({ State.reset with run := .faulted ⟨.outOfBoundsAddress, 0x8000, .fetch, 0x8000⟩ } : State).run =
      .faulted ⟨.outOfBoundsAddress, 0x8000, .fetch, 0x8000⟩ := ⟨rfl, rfl⟩

theorem witness_HaltCheckChangesOnlyTheRunState :
    (State.launch Config.regInit 0x0000 []).run = .running ∧ (State.launch Config.regInit 0x0000 []).pc = 0x0000#16 := by decide

theorem witness_FetchOutOfBoundsFaults :
    (State.launch Config.regInit 0x8000 []).run = .running ∧ 32768 ≤ (State.launch Config.regInit 0x8000 []).pc.toNat := by
  decide

/-- A step whose accesses are all inside, and V16, whose data access is not. -/
theorem witness_FirstFailingAccessDecidesTheStep :
    (∃ t, State.reset.run = .running ∧ State.reset.pc ≠ 0x0000#16 ∧ step State.reset = .next t) ∧
    (∃ t, (engine 0x7FFF 0x2000 #v[0, 0, 0, 0, 0, 0, 0, 0] .zero []).run = .running ∧ (engine 0x7FFF 0x2000 #v[0, 0, 0, 0, 0, 0, 0, 0] .zero []).pc ≠ 0x0000#16 ∧
      step (engine 0x7FFF 0x2000 #v[0, 0, 0, 0, 0, 0, 0, 0] .zero []) = .next t) :=
  ⟨⟨_, rfl, by decide, rfl⟩, ⟨_, rfl, by decide, rfl⟩⟩

theorem witness_FaultedIsAbsorbing :
    ({ State.reset with run := .faulted ⟨.outOfBoundsAddress, 0x9000, .read, 0x3000⟩ } : State).run =
      .faulted ⟨.outOfBoundsAddress, 0x9000, .read, 0x3000⟩ := rfl

/-- A launched engine that runs one step and is RUNNING after it. -/
theorem witness_CyclesCountCommittedSteps :
    ∃ t, step (State.launch Config.regInit 0x3000 []) = .next t ∧
      (State.launch Config.regInit 0x3000 []).ReachesIn 1 t ∧ t.run = .running := ⟨_, rfl, rfl, rfl⟩

/-- The source's own halt program, W1. -/
theorem witness_HaltTakesOneExtraStep :
    let s := engine 0x3000 0xF025 #v[0, 0, 0, 0, 0, 0, 0, 0] .zero []
    Executes s ∧ opcodeOf (s.mem.readWord s.pc) = 0xF#4 ∧ vector8Of (s.mem.readWord s.pc) = 0x25#8 :=
  ⟨⟨rfl, by decide, by decide⟩, by decide, by decide⟩

theorem witness_StepKeepsTheInvariant :
    (State.launch Config.regInit 0x0000 []).Inv ∧
    ∃ t, step (State.launch Config.regInit 0x0000 []) = .next t ∧ t.run = .halted :=
  ⟨⟨by decide, fun h => (nomatch h), fun _ h => (nomatch h)⟩, _, rfl, rfl⟩

theorem witness_SafeRunsAreThoseWithoutAFailingAccess : ¬ State.reset.IsFaulted := fun ⟨_, h⟩ => (nomatch h)

/-- A launch at the sentinel completes in one step: F4. -/
theorem witness_RunToCompletionHasOneAnswer :
    (State.launch Config.regInit 0x0000 []).Inv ∧
    (State.launch Config.regInit 0x0000 []).RunsToCompletion (State.launch Config.regInit 0x0000 []).halt .halted :=
  ⟨⟨by decide, fun h => (nomatch h), fun _ h => (nomatch h)⟩, 1, rfl, by decide⟩

end Sys2Proof.Tests
end

section
/-! PROOFS. The codec's obligations (00_scope.md R10, R11): the value of an extracted field, and the array of a Word's bits. -/

namespace Sys2Proof

theorem extractField_zeroExtend (w : Word) (lo hi : Nat) :
    extractField w lo hi false = (w.extractLsb' lo (hi - lo + 1)).setWidth 16 := rfl

theorem extractField_signExtend (w : Word) (lo hi : Nat) :
    extractField w lo hi true = (w.extractLsb' lo (hi - lo + 1)).signExtend 16 := rfl

/-- The top bit of the field, by which `sext_16` extends it, is bit `hi` of the Word. -/
theorem msb_extractLsb'_field (w : Word) {lo hi : Nat} (h : lo ≤ hi) :
    (w.extractLsb' lo (hi - lo + 1)).msb = w.getLsbD hi := by
  have hbit : lo + (hi - lo) = hi := by omega
  simp [BitVec.msb_eq_getLsbD_last, hbit]

/-- `sext_16` of a field whose top bit is 0 is the field itself (00_scope.md R10). -/
theorem toNat_signExtend_of_msb_false {n : Nat} (f : BitVec n) (hn : n ≤ 16) (h : f.msb = false) :
    (f.signExtend 16).toNat = f.toNat := by
  rw [BitVec.signExtend_eq_setWidth_of_msb_false h, BitVec.toNat_setWidth_of_le hn]

/-- `sext_16` of a field whose top bit is 1 is the field less `2 ^ n` modulo `2 ^ 16` (00_scope.md R10). -/
theorem toNat_signExtend_of_msb_true {n : Nat} (f : BitVec n) (hn : n ≤ 16) (h : f.msb = true) :
    (f.signExtend 16).toNat = (f.toNat + 65536 - 2 ^ n) % 65536 := by
  have hf : f.toNat < 2 ^ n := f.isLt
  have hpow : 2 ^ n ≤ 2 ^ 16 := Nat.pow_le_pow_right (by decide) hn
  rw [BitVec.toNat_signExtend, BitVec.toNat_setWidth_of_le hn, if_pos h]
  omega

@[simp] theorem getElem_toBitArray (w : Word) (i : Nat) (h : i < 16) : (toBitArray w)[i] = w.getLsbD i :=
  Vector.getElem_ofFn h

/-- Settles O7: the field is `w / 2 ^ lo` modulo `2 ^ width`, its top bit is bit `hi`, and the sign extension goes by that bit. -/
theorem extractFieldIsTheValueOfTheField : Obligations.ExtractFieldIsTheValueOfTheField := by
  unfold Obligations.ExtractFieldIsTheValueOfTheField
  intro w lo hi hlo hhi f
  have hwidth : hi - lo + 1 ≤ 16 := by omega
  have hfield : (w.extractLsb' lo (hi - lo + 1)).toNat = f := by
    rw [BitVec.extractLsb'_toNat, Nat.shiftRight_eq_div_pow]
  have hmsb := msb_extractLsb'_field w hlo
  refine ⟨?unsigned, fun htop => ?topZero, fun htop => ?topOne, extractField_zeroExtend w lo hi,
    extractField_signExtend w lo hi⟩
  case unsigned => exact (unsignedField_eq w (by omega)).trans hfield
  case topZero =>
    rw [extractField_signExtend, toNat_signExtend_of_msb_false _ hwidth (hmsb.trans htop), hfield]
  case topOne =>
    rw [extractField_signExtend, toNat_signExtend_of_msb_true _ hwidth (hmsb.trans htop), hfield]

/-- Settles O8: entry `i` of the array is bit `i` of the Word. -/
theorem bitArrayHoldsEachBit : Obligations.BitArrayHoldsEachBit := by
  unfold Obligations.BitArrayHoldsEachBit
  intro w i
  exact getElem_toBitArray w i i.isLt

end Sys2Proof
end

section
/-! PROOFS. The condition codes over every instruction (10_state.md R26): who writes them, from what, and who reads them. -/

namespace Sys2Proof.Machine

open Sys2Proof.Claims

variable {s t : State} {i : Instr} {l : Latch} {cc : CC} {r : Reg} {a : Word} {off : Int}

/-! ### The flags of a result, and the flags kept -/

/-- `setcc` follows the table of 41_operate.md R105. -/
theorem flagsFor_ccOf (v : Word) : FlagsFor v (ccOf v) := by
  unfold FlagsFor ccOf
  by_cases hz : v = 0x0000#16
  · simp [hz, CC.n, CC.z, CC.p]
  · cases hn : v.getLsbD 15 <;> simp [hz, CC.n, CC.z, CC.p]

theorem sameFlags_of_cc_eq (h : t.current.cc = s.current.cc) : SameFlags s t :=
  ⟨congrArg CC.n h, congrArg CC.z h, congrArg CC.p h⟩

/-! ### What the loads and stores build when they do not raise -/

theorem State.loadFrom_ok (h : s.loadFrom r a = .ok l) : ∃ v, l = s.latch.writeResult r v := by
  rw [State.loadFrom_eq] at h
  split at h
  · exact ⟨_, (Except.ok.inj h).symm⟩
  · cases h

theorem State.loadIndirect_ok (h : s.loadIndirect r off = .ok l) : ∃ v, l = s.latch.writeResult r v := by
  rw [State.loadIndirect_eq] at h
  split at h
  · exact State.loadFrom_ok h
  · cases h

theorem State.storeTo_ok (h : s.storeTo r a = .ok l) : l.next = s.latch.next := by
  rw [State.storeTo_eq] at h
  split at h
  · exact Except.ok.inj h ▸ rfl
  · cases h

theorem State.storeIndirect_ok (h : s.storeIndirect r off = .ok l) : l.next = s.latch.next := by
  rw [State.storeIndirect_eq] at h
  split at h
  · exact State.storeTo_ok h
  · cases h

/-! ### Who writes the flags -/

/-- ADD, AND, NOT, LD, LDR and LDI commit a result in the register they write, with the flags of that result. -/
theorem effect_ok_of_callsSetcc (hi : callsSetcc i = true) (h : effect i s = .ok l) :
    ∃ dr v, registerWritten i = some dr ∧ l = s.latch.writeResult dr v := by
  cases i with
  | addReg dr | addImm dr | andReg dr | andImm dr | not dr => exact ⟨dr, _, rfl, (Except.ok.inj h).symm⟩
  | ld dr | ldr dr =>
    obtain ⟨v, hv⟩ := State.loadFrom_ok h
    exact ⟨dr, v, rfl, hv⟩
  | ldi dr =>
    obtain ⟨v, hv⟩ := State.loadIndirect_ok h
    exact ⟨dr, v, rfl, hv⟩
  | br | st | jsr | jsrr | str | rti | sti | jmp | reserved13 | lea | trap => cases hi

/-- Every other instruction commits the flags it found. -/
theorem effect_cc_of_not_callsSetcc (hi : callsSetcc i = false) (h : effect i s = .ok l) :
    l.next.cc = s.current.cc := by
  cases i with
  | br n z p =>
    cases Except.ok.inj h
    cases branchTaken n z p s.current.cc <;> rfl
  | trap vector =>
    cases Except.ok.inj h
    split <;> rfl
  | jsr | jsrr | jmp | lea | rti | reserved13 => exact Except.ok.inj h ▸ rfl
  | st | str => rw [State.storeTo_ok h, State.latch_cc]
  | sti => rw [State.storeIndirect_ok h, State.latch_cc]
  | addReg | addImm | ld | andReg | andImm | ldr | not | ldi => cases hi

theorem exec_flags_of_not_callsSetcc (hi : callsSetcc i = false) (h : exec i s = .next t) : SameFlags s t := by
  obtain ⟨l, hl, rfl⟩ | ⟨raised, -, rfl⟩ := exec_cases h
  · exact sameFlags_of_cc_eq (effect_cc_of_not_callsSetcc hi hl)
  · exact sameFlags_of_cc_eq rfl

/-- The flags of an instruction with `setcc` that commits are those of the register it writes: a fault is excluded, since its
state is not RUNNING. -/
theorem exec_flags_of_callsSetcc (hi : callsSetcc i = true) (h : exec i s = .next t) (ht : t.run = .running) :
    ∃ dr, registerWritten i = some dr ∧ FlagsFor (t.reg dr) t.current.cc := by
  obtain ⟨l, hl, rfl⟩ | ⟨raised, -, rfl⟩ := exec_cases h
  · obtain ⟨dr, v, hdr, rfl⟩ := effect_ok_of_callsSetcc hi hl
    exact ⟨dr, hdr, by simpa using flagsFor_ccOf v⟩
  · cases ht

/-! ### Who reads the flags: the same step from a state with other flags -/

/-- The state with other flags. -/
def State.withCc (s : State) (cc : CC) : State := { s with current := { s.current with cc := cc } }

/-- The NEXT snapshot with other flags. -/
def Latch.withCc (l : Latch) (cc : CC) : Latch := { l with next := { l.next with cc := cc } }

theorem State.storeTo_withCc : (s.withCc cc).storeTo r a = (s.storeTo r a).map (·.withCc cc) := by
  rw [State.storeTo_eq, State.storeTo_eq]
  split <;> rfl

theorem State.storeIndirect_withCc : (s.withCc cc).storeIndirect r off = (s.storeIndirect r off).map (·.withCc cc) := by
  rw [State.storeIndirect_eq, State.storeIndirect_eq]
  by_cases h : InBounds (s.pcRelative off)
  · rw [if_pos h, if_pos (show InBounds ((s.withCc cc).pcRelative off) from h)]
    exact State.storeTo_withCc
  · rw [if_neg h, if_neg (show ¬ InBounds ((s.withCc cc).pcRelative off) from h)]
    rfl

/-- An instruction with `setcc` overwrites the flags, so what they were does not show at all. -/
theorem effect_withCc_of_callsSetcc (hi : callsSetcc i = true) : effect i (s.withCc cc) = effect i s := by
  cases i with
  | addReg | addImm | ld | andReg | andImm | ldr | not | ldi => rfl
  | br | st | jsr | jsrr | str | rti | sti | jmp | reserved13 | lea | trap => cases hi

/-- Every other instruction but BR carries the flags along and does the same besides. -/
theorem effect_withCc_of_not_callsSetcc (hi : callsSetcc i = false) (hb : isBranch i = false) :
    effect i (s.withCc cc) = (effect i s).map (·.withCc cc) := by
  cases i with
  | br => cases hb
  | jsr | jsrr | jmp | lea | rti | reserved13 => rfl
  | st | str => exact State.storeTo_withCc
  | sti => exact State.storeIndirect_withCc
  | trap vector =>
    simp only [effect]
    split <;> rfl
  | addReg | addImm | ld | andReg | andImm | ldr | not | ldi => cases hi

/-- From a state with other flags an instruction that is not BR reaches the same state up to the flags. -/
theorem exec_withCc_of_not_branch (hb : isBranch i = false) (h : exec i s = .next t) :
    ∃ c, exec i (s.withCc cc) = .next (t.withCc c) := by
  rw [exec_eq_finish]
  cases hi : callsSetcc i with
  | false =>
    have he := effect_withCc_of_not_callsSetcc (s := s) (cc := cc) hi hb
    obtain ⟨l, hl, rfl⟩ | ⟨raised, hl, rfl⟩ := exec_cases h <;> exact ⟨cc, by rw [he, hl]; rfl⟩
  | true =>
    have he := effect_withCc_of_callsSetcc (s := s) (cc := cc) hi
    obtain ⟨l, hl, rfl⟩ | ⟨raised, hl, rfl⟩ := exec_cases h
    · exact ⟨l.next.cc, by rw [he, hl]; rfl⟩
    · exact ⟨cc, by rw [he, hl]; rfl⟩

end Sys2Proof.Machine

namespace Sys2Proof

open Sys2Proof.Machine Sys2Proof.Claims

/-- Settles O36: who writes the flags and from what, by what each executor builds; who reads them, by running the same executor
from a state with other flags. -/
theorem onlySetccWritesAndOnlyBrReadsTheFlags : Obligations.OnlySetccWritesAndOnlyBrReadsTheFlags := by
  unfold Obligations.OnlySetccWritesAndOnlyBrReadsTheFlags
  refine ⟨?keepers, ?writers, ?readers⟩
  case keepers => exact fun i s t h hi => exec_flags_of_not_callsSetcc hi h
  case writers => exact fun i s t _ h ht hi => exec_flags_of_callsSetcc hi h ht
  case readers =>
    intro i s t cc hb h
    obtain ⟨c, hu⟩ := exec_withCc_of_not_branch (cc := cc) hb h
    exact ⟨t.withCc c, hu, rfl, fun _ => rfl, rfl, rfl, rfl⟩

end Sys2Proof
end

section
/-! PROOFS. The host's memory commands (20_memory.md R61): what each one answers at an address of the array. -/

namespace Sys2Proof.Machine

variable {s : State} {address other : Nat} {word : Word}

theorem hostAddress_ok (h : address < 32768) : hostAddress address = .ok (BitVec.ofNat 16 address) := if_pos h

theorem State.getMemory_ok (h : address < 32768) :
    s.getMemory address = .ok (s.mem.readWord (BitVec.ofNat 16 address)) := by
  simp only [State.getMemory, hostAddress_ok h]

theorem State.setMemory_ok (h : address < 32768) :
    s.setMemory address word = .ok { s with mem := s.mem.writeWord (BitVec.ofNat 16 address) word } := by
  simp only [State.setMemory, hostAddress_ok h]

/-- Host addresses of the array are not reduced modulo `2 ^ 16`, so different ones name different Words. -/
theorem ofNat_ne_of_hostAddress_ne (ho : other < 32768) (ha : address < 32768) (hne : other ≠ address) :
    BitVec.ofNat 16 other ≠ BitVec.ofNat 16 address := fun h => by
  have htoNat := congrArg BitVec.toNat h
  rw [BitVec.toNat_ofNat, BitVec.toNat_ofNat] at htoNat
  omega

end Sys2Proof.Machine

namespace Sys2Proof

open Sys2Proof.Machine

/-- Settles O4: `set_memory` updates the memory list alone, so each clause is a read after a write of one Word. -/
theorem hostMemoryCommandsReadAndWriteOneWord : Obligations.HostMemoryCommandsReadAndWriteOneWord := by
  unfold Obligations.HostMemoryCommandsReadAndWriteOneWord
  intro s address word ha
  refine ⟨State.getMemory_ok ha, _, State.setMemory_ok ha, ?written, ?others, rfl, rfl, rfl⟩
  case written => rw [State.getMemory_ok ha, Memory.readWord_writeWord_same]
  case others =>
    intro other ho hne
    rw [State.getMemory_ok ho, State.getMemory_ok ho,
      Memory.readWord_writeWord_other (ofNat_ne_of_hostAddress_ne ho ha hne)]

end Sys2Proof
end

section
/-! PROOFS. The cycle counter (40_fetch_and_cycle.md R93): what one step adds to it, and what a run from launch leaves in it. -/

namespace Sys2Proof.Machine

variable {s t : State} {i : Instr} {n : Nat}

/-! ### One step -/

/-- An executed instruction counts if it commits, and a fault leaves RUNNING. -/
theorem exec_cycles (hs : s.run = .running) (h : exec i s = .next t) :
    t.cycles = if t.run = .running then s.cycles + 1 else s.cycles := by
  obtain ⟨l, -, rfl⟩ | ⟨raised, -, rfl⟩ := exec_cases h
  · simp [hs]
  · simp

theorem step_cycles (h : step s = .next t) :
    t.cycles = if t.run = .running then s.cycles + 1 else s.cycles := by
  obtain ⟨hs, rfl⟩ | ⟨-, -, rfl⟩ | ⟨-, -, -, rfl⟩ | ⟨hs, -, -, hexec⟩ := step_cases h
  · exact (if_neg hs).symm
  · simp
  · simp
  · exact exec_cycles hs hexec

/-! ### Runs -/

/-- A run of `n + 1` steps begins with a step that has a next state. -/
theorem State.exists_step_of_reachesIn_succ (h : s.ReachesIn (n + 1) t) :
    ∃ u, step s = .next u ∧ u.ReachesIn n t := by
  cases hs : core.step s with
  | next u => exact ⟨u, hs, (State.reachesIn_succ hs).mp h⟩
  | fault | refused => simp [State.ReachesIn, Host.Core.run, hs] at h

theorem State.eq_of_reachesIn_of_stopped (hs : s.run ≠ .running) (h : s.ReachesIn n t) : t = s := by
  induction n with
  | zero => exact (State.reachesIn_zero.mp h).symm
  | succ n ih => exact ih ((State.reachesIn_succ (step_of_stopped hs)).mp h)

/-- A run that ends RUNNING was RUNNING after each of its steps, so each of them counted. -/
theorem State.cycles_of_reachesIn (ht : t.run = .running) (h : s.ReachesIn n t) : t.cycles = s.cycles + n := by
  induction n generalizing s with
  | zero => rw [State.reachesIn_zero.mp h, Nat.add_zero]
  | succ n ih =>
    obtain ⟨u, hstep, hrest⟩ := State.exists_step_of_reachesIn_succ h
    have hu : u.run = .running := by
      by_contra hstopped
      exact hstopped (State.eq_of_reachesIn_of_stopped hstopped hrest ▸ ht)
    have hcount := step_cycles hstep
    rw [if_pos hu] at hcount
    rw [ih hrest, hcount]
    omega

end Sys2Proof.Machine

namespace Sys2Proof

open Sys2Proof.Machine

/-- Settles O52: the first clause by what a step can do, the second by induction on the number of steps, as the counter is 0 at
launch. -/
theorem cyclesCountCommittedSteps : Obligations.CyclesCountCommittedSteps := by
  unfold Obligations.CyclesCountCommittedSteps
  refine ⟨fun s t h => step_cycles h, ?fromLaunch⟩
  case fromLaunch =>
    intro regInit entryPC memInit k t h ht
    exact (State.cycles_of_reachesIn ht h).trans (Nat.zero_add k)

end Sys2Proof
end

section
/-! PROOFS. The operate family (41_operate.md): the state in which an ALU operation leaves the machine, the instruction a Word of
the immediate forms decodes to, and `setcc`. -/

namespace Sys2Proof.Machine

open Sys2Proof.Claims

variable {s : State} {i : Instr} {v : Word} {dr : Reg}

/-- The commit of a result: the frame that ADD, AND, NOT and the loads share. -/
theorem writesResult_commit : WritesResult dr v s (s.commit (s.latch.writeResult dr v)) := by
  refine ⟨?result, ?flags, rfl, ?otherRegs, fun _ => rfl, rfl, rfl⟩
  case result => rw [State.commit_reg, Latch.writeResult_reg_same]
  case flags => exact flagsFor_ccOf v
  case otherRegs =>
    intro r hr
    rw [State.commit_reg, Latch.writeResult_reg_other hr, State.latch_reg]

/-- An instruction whose effect is an ALU operation raises no exception, and leaves the result of that operation. -/
theorem exec_writesResult_of_operate (h : effect i s = s.operate dr v) :
    ∃ t, exec i s = .next t ∧ WritesResult dr v s t :=
  ⟨_, by rw [exec_eq_finish, h, State.operate, State.finish_ok], writesResult_commit⟩

end Sys2Proof.Machine

namespace Sys2Proof

open Sys2Proof.Machine Sys2Proof.Claims

variable {ir : Word}

/-! ### Decoding the immediate forms -/

/-- The opcode id selects the variant (30_encoding.md R66, R71). -/
theorem decodeOpcode_of_opcodeOf {op : BitVec 4} (h : opcodeOf ir = op) :
    decodeOpcode ir = Opcode.byId[op.toFin] := by
  rw [← h, decodeOpcode]

/-- Opcode 1 with the mode bit 5 one (30_encoding.md R68). -/
theorem decode_addImm (hop : opcodeOf ir = 0x1#4) (hmode : ir.getLsbD 5 = true) :
    decode ir = .addImm (reg11 ir) (reg8 ir) (imm5Of ir).toInt := by
  have hadd : decodeOpcode ir = .add := decodeOpcode_of_opcodeOf hop
  simp only [decode, hadd, hmode, if_true, regField, signedField_eq ir (show 4 - 0 < 16 by decide)]

/-- Opcode 5 with the mode bit 5 one (30_encoding.md R68). -/
theorem decode_andImm (hop : opcodeOf ir = 0x5#4) (hmode : ir.getLsbD 5 = true) :
    decode ir = .andImm (reg11 ir) (reg8 ir) (imm5Of ir).toInt := by
  have hand : decodeOpcode ir = .and := decodeOpcode_of_opcodeOf hop
  simp only [decode, hand, hmode, if_true, regField, signedField_eq ir (show 4 - 0 < 16 by decide)]

/-! ### The obligations -/

/-- Settles O13: the flags of a `setcc` follow the table, its other fields stay, and an instruction with `setcc` that commits
leaves the flags of the register it writes. -/
theorem setccSetsExactlyOneFlag : Obligations.SetccSetsExactlyOneFlag := by
  unfold Obligations.SetccSetsExactlyOneFlag
  refine ⟨?table, ?callers⟩
  case table =>
    intro v l
    exact ⟨flagsFor_ccOf v, l.setCc_pc v, l.setCc_reg v, l.setCc_write v⟩
  case callers => exact fun i s t hi _ h ht => exec_flags_of_callsSetcc hi h ht

/-- Settles O15: the Word decodes to the immediate form, whose effect is the sum with `sext_16` of its field. -/
theorem addImmediateResult : Obligations.AddImmediateResult := by
  unfold Obligations.AddImmediateResult
  intro ir s hop hmode
  refine ⟨decode_addImm hop hmode, exec_writesResult_of_operate ?_⟩
  rw [effect, immediate_toInt]

/-- Settles O17: the Word decodes to the immediate form, whose effect is the bitwise and with `sext_16` of its field. -/
theorem andImmediateResult : Obligations.AndImmediateResult := by
  unfold Obligations.AndImmediateResult
  intro ir s hop hmode
  refine ⟨decode_andImm hop hmode, exec_writesResult_of_operate ?_⟩
  rw [effect, immediate_toInt]

end Sys2Proof
end

section
/-! PROOFS. The data movement family (42_data_movement.md): LEA, which writes the PC-relative address itself. -/

namespace Sys2Proof.Machine

open Sys2Proof.Claims

/-- The PC-relative address of an offset field (42_data_movement.md R115). -/
theorem State.pcRelative_toInt {n : Nat} (s : State) (f : BitVec n) : s.pcRelative f.toInt = s.pc + 1 + sext16 f := by
  rw [State.pcRelative, State.pcInc, immediate_toInt]

/-- LEA always commits: it makes no access that could raise (42_data_movement.md R122). -/
theorem exec_lea (dr : Reg) (off : Int) (s : State) :
    exec (.lea dr off) s = .next (s.commit (s.latch.setReg dr (s.pcRelative off))) := by
  rw [exec_eq_finish, effect, State.finish_ok]

end Sys2Proof.Machine

namespace Sys2Proof

open Sys2Proof.Machine Sys2Proof.Claims

/-- Opcode 14 (30_encoding.md R70). -/
theorem decode_lea {ir : Word} (hop : opcodeOf ir = 0xE#4) :
    decode ir = .lea (reg11 ir) (offset9Of ir).toInt := by
  have hlea : decodeOpcode ir = .lea := decodeOpcode_of_opcodeOf hop
  simp only [decode, hlea, regField, signedField_eq ir (show 8 - 0 < 16 by decide)]

/-- Settles O27: the Word decodes to LEA, which commits the PC-relative address in DR and leaves the rest of NEXT as the fetch
left it, with no pending write. -/
theorem leaResult : Obligations.LeaResult := by
  unfold Obligations.LeaResult
  intro ir s hop
  refine ⟨decode_lea hop, _, exec_lea _ _ s, ?address, rfl, ?otherRegs, sameFlags_of_cc_eq rfl, fun _ => rfl, rfl, rfl⟩
  case address => rw [State.commit_reg, Latch.setReg_reg_same, State.pcRelative_toInt]
  case otherRegs =>
    intro r hr
    rw [State.commit_reg, Latch.setReg_reg_other hr, State.latch_reg]

end Sys2Proof
end

section
/-! PROOFS. The control family (43_control.md): a commit that moves only the PC, the condition of BR, and a commit that links in
R7 and jumps. -/

namespace Sys2Proof.Machine

open Sys2Proof.Claims

variable {s : State} {i : Instr}

/-! ### Moving the PC -/

theorem movesPc_commit (s : State) (target : Word) : MovesPc target s (s.commit (s.latch.setPc target)) :=
  ⟨rfl, fun _ => rfl, sameFlags_of_cc_eq rfl, fun _ => rfl, rfl, rfl⟩

/-- BR's condition as 43_control.md R130 writes it. -/
theorem branchTaken_iff {n z p : Bool} {cc : CC} :
    branchTaken n z p cc = true ↔ n = true ∧ cc.n = true ∨ z = true ∧ cc.z = true ∨ p = true ∧ cc.p = true := by
  simp only [branchTaken, Bool.or_eq_true, Bool.and_eq_true, or_assoc]

/-- BR always commits. Not taken, it leaves in NEXT the PCinc of the fetch, as a jump to PCinc would. -/
theorem exec_br (n z p : Bool) (off : Int) (s : State) :
    exec (.br n z p off) s =
      .next (s.commit (s.latch.setPc (if branchTaken n z p s.current.cc then s.pcRelative off else s.pcInc))) := by
  rw [exec_eq_finish, effect, State.finish_ok]
  cases branchTaken n z p s.current.cc <;> rfl

/-! ### Linking and jumping -/

theorem linksAndJumps_commit (s : State) (target : Word) :
    LinksAndJumps target s (s.commit ((s.latch.setReg Config.linkReg s.pcInc).setPc target)) := by
  refine ⟨?link, rfl, ?otherRegs, sameFlags_of_cc_eq rfl, fun _ => rfl, rfl, rfl⟩
  case link => exact s.latch.setReg_reg_same s.pcInc Config.linkReg
  case otherRegs =>
    intro r hr
    rw [State.commit_reg, Latch.setPc_reg, Latch.setReg_reg_other hr, State.latch_reg]

/-- An instruction whose effect is a linking jump raises no exception, and leaves PCinc in R7 and the target in the PC. -/
theorem exec_linksAndJumps_of_linkAndJump {target : Word} (h : effect i s = s.linkAndJump target) :
    ∃ t, exec i s = .next t ∧ LinksAndJumps target s t :=
  ⟨_, by rw [exec_eq_finish, h, State.linkAndJump, State.finish_ok], linksAndJumps_commit s target⟩

end Sys2Proof.Machine

namespace Sys2Proof

open Sys2Proof.Machine Sys2Proof.Claims

variable {ir : Word}

/-! ### Decoding BR and JSR -/

/-- Opcode 0 (30_encoding.md R70). -/
theorem decode_br (hop : opcodeOf ir = 0x0#4) :
    decode ir = .br (ir.getLsbD 11) (ir.getLsbD 10) (ir.getLsbD 9) (offset9Of ir).toInt := by
  have hbr : decodeOpcode ir = .br := decodeOpcode_of_opcodeOf hop
  simp only [decode, hbr, signedField_eq ir (show 8 - 0 < 16 by decide)]

/-- Opcode 4 with the mode bit 11 one (30_encoding.md R68). -/
theorem decode_jsr (hop : opcodeOf ir = 0x4#4) (hmode : ir.getLsbD 11 = true) :
    decode ir = .jsr (offset11Of ir).toInt := by
  have hjsr : decodeOpcode ir = .jsr := decodeOpcode_of_opcodeOf hop
  simp only [decode, hjsr, hmode, if_true, signedField_eq ir (show 10 - 0 < 16 by decide)]

/-! ### The obligations -/

/-- Settles O28: the Word decodes to BR, whose commit moves the PC alone, to the PC-relative address if a tested flag is set and
to PCinc if none is. -/
theorem brResult : Obligations.BrResult := by
  unfold Obligations.BrResult
  intro ir s hop taken i
  refine ⟨decode_br hop, _, exec_br _ _ _ _ s, ?taken, ?notTaken⟩
  case taken =>
    intro htaken
    rw [if_pos (branchTaken_iff.mpr htaken), State.pcRelative_toInt]
    exact movesPc_commit s _
  case notTaken =>
    intro hnot
    rw [if_neg (fun h => hnot (branchTaken_iff.mp h)), State.pcInc]
    exact movesPc_commit s _

/-- Settles O30: the Word decodes to JSR, whose effect is the linking jump to the PC-relative address of its field. -/
theorem jsrResult : Obligations.JsrResult := by
  unfold Obligations.JsrResult
  intro ir s hop hmode
  refine ⟨decode_jsr hop hmode, exec_linksAndJumps_of_linkAndJump ?_⟩
  rw [effect, State.pcRelative_toInt]

end Sys2Proof
end

section
/-! PROOFS. What a Word decodes to: the layout of each row of 30_encoding.md R70, read from the Word's own opcode and mode bits. -/

namespace Sys2Proof

open Sys2Proof.Machine Sys2Proof.Claims

variable {ir : Word} {i : Instr}

/-- The row of 30_encoding.md R70 that a Word's opcode and mode bit select, with the operands at the places of its fields. -/
inductive Layout (ir : Word) : Instr → Prop
  | br (hop : opcodeOf ir = 0x0#4) :
    Layout ir (.br (ir.getLsbD 11) (ir.getLsbD 10) (ir.getLsbD 9) (offset9Of ir).toInt)
  | addReg (hop : opcodeOf ir = 0x1#4) (hmode : ir.getLsbD 5 = false) : Layout ir (.addReg (reg11 ir) (reg8 ir) (reg2 ir))
  | addImm (hop : opcodeOf ir = 0x1#4) (hmode : ir.getLsbD 5 = true) :
    Layout ir (.addImm (reg11 ir) (reg8 ir) (imm5Of ir).toInt)
  | ld (hop : opcodeOf ir = 0x2#4) : Layout ir (.ld (reg11 ir) (offset9Of ir).toInt)
  | st (hop : opcodeOf ir = 0x3#4) : Layout ir (.st (reg11 ir) (offset9Of ir).toInt)
  | jsr (hop : opcodeOf ir = 0x4#4) (hmode : ir.getLsbD 11 = true) : Layout ir (.jsr (offset11Of ir).toInt)
  | jsrr (hop : opcodeOf ir = 0x4#4) (hmode : ir.getLsbD 11 = false) : Layout ir (.jsrr (reg8 ir))
  | andReg (hop : opcodeOf ir = 0x5#4) (hmode : ir.getLsbD 5 = false) : Layout ir (.andReg (reg11 ir) (reg8 ir) (reg2 ir))
  | andImm (hop : opcodeOf ir = 0x5#4) (hmode : ir.getLsbD 5 = true) :
    Layout ir (.andImm (reg11 ir) (reg8 ir) (imm5Of ir).toInt)
  | ldr (hop : opcodeOf ir = 0x6#4) : Layout ir (.ldr (reg11 ir) (reg8 ir) (offset6Of ir).toInt)
  | str (hop : opcodeOf ir = 0x7#4) : Layout ir (.str (reg11 ir) (reg8 ir) (offset6Of ir).toInt)
  | rti (hop : opcodeOf ir = 0x8#4) : Layout ir .rti
  | not (hop : opcodeOf ir = 0x9#4) : Layout ir (.not (reg11 ir) (reg8 ir))
  | ldi (hop : opcodeOf ir = 0xA#4) : Layout ir (.ldi (reg11 ir) (offset9Of ir).toInt)
  | sti (hop : opcodeOf ir = 0xB#4) : Layout ir (.sti (reg11 ir) (offset9Of ir).toInt)
  | jmp (hop : opcodeOf ir = 0xC#4) : Layout ir (.jmp (reg8 ir))
  | reserved13 (hop : opcodeOf ir = 0xD#4) : Layout ir .reserved13
  | lea (hop : opcodeOf ir = 0xE#4) : Layout ir (.lea (reg11 ir) (offset9Of ir).toInt)
  | trap (hop : opcodeOf ir = 0xF#4) : Layout ir (.trap (vector8Of ir).toNat)

/-- `decode` reads a Word by its layout. -/
theorem Layout.decode_eq (h : Layout ir i) : decode ir = i := by
  cases h with
  | br hop => exact decode_br hop
  | addImm hop hmode => exact decode_addImm hop hmode
  | andImm hop hmode => exact decode_andImm hop hmode
  | jsr hop hmode => exact decode_jsr hop hmode
  | lea hop => exact decode_lea hop
  | addReg hop hmode | andReg hop hmode | jsrr hop hmode =>
    simpa [decode, decodeOpcode_of_opcodeOf hop, Opcode.byId, regField] using hmode
  | ld hop | st hop | ldr hop | str hop | ldi hop | sti hop =>
    simp [decode, decodeOpcode_of_opcodeOf hop, Opcode.byId, regField, signedField_eq]
  | rti hop | not hop | jmp hop | reserved13 hop =>
    simp [decode, decodeOpcode_of_opcodeOf hop, Opcode.byId, regField]
  | trap hop => simp [decode, decodeOpcode_of_opcodeOf hop, Opcode.byId, unsignedField_eq]

theorem opcode_cases : ∀ op : BitVec 4, op = 0x0#4 ∨ op = 0x1#4 ∨ op = 0x2#4 ∨ op = 0x3#4 ∨ op = 0x4#4 ∨ op = 0x5#4 ∨
    op = 0x6#4 ∨ op = 0x7#4 ∨ op = 0x8#4 ∨ op = 0x9#4 ∨ op = 0xA#4 ∨ op = 0xB#4 ∨ op = 0xC#4 ∨ op = 0xD#4 ∨ op = 0xE#4 ∨
    op = 0xF#4 := by decide

/-- Every Word has a layout: the sixteen opcodes, with the mode bit of ADD, AND and JSR (30_encoding.md R68, R73). -/
theorem exists_layout (ir : Word) : ∃ i, Layout ir i := by
  obtain h | h | h | h | h | h | h | h | h | h | h | h | h | h | h | h := opcode_cases (opcodeOf ir)
  · exact ⟨_, .br h⟩
  · cases hmode : ir.getLsbD 5
    · exact ⟨_, .addReg h hmode⟩
    · exact ⟨_, .addImm h hmode⟩
  · exact ⟨_, .ld h⟩
  · exact ⟨_, .st h⟩
  · cases hmode : ir.getLsbD 11
    · exact ⟨_, .jsrr h hmode⟩
    · exact ⟨_, .jsr h hmode⟩
  · cases hmode : ir.getLsbD 5
    · exact ⟨_, .andReg h hmode⟩
    · exact ⟨_, .andImm h hmode⟩
  · exact ⟨_, .ldr h⟩
  · exact ⟨_, .str h⟩
  · exact ⟨_, .rti h⟩
  · exact ⟨_, .not h⟩
  · exact ⟨_, .ldi h⟩
  · exact ⟨_, .sti h⟩
  · exact ⟨_, .jmp h⟩
  · exact ⟨_, .reserved13 h⟩
  · exact ⟨_, .lea h⟩
  · exact ⟨_, .trap h⟩

/-- Every Word is laid out as the instruction it decodes to. -/
theorem layout_decode (ir : Word) : Layout ir (decode ir) := by
  obtain ⟨i, h⟩ := exists_layout ir
  exact h.decode_eq ▸ h

end Sys2Proof
end

section
/-! PROOFS. The encoder and the decoder undo each other (30_encoding.md sections 3 and 5). -/

namespace Sys2Proof

open Sys2Proof.Machine Sys2Proof.Claims Sys2Proof.Laws

variable {w : Word} {i : Instr} {m n len : Nat} {off : Int}

/-! ### A field of a Word that is put together from its parts -/

theorem field_last {high : BitVec m} {low : BitVec n} : (high ++ low).extractLsb' 0 n = low :=
  BitVec.extractLsb'_append_eq_right

/-- A field above the last part is a field of what comes before it. -/
theorem field_above {high : BitVec m} {low : BitVec n} {f : BitVec len} (start : Nat)
    (h : high.extractLsb' start len = f) : (high ++ low).extractLsb' (start + n) len = f := by
  rw [BitVec.extractLsb'_append_eq_of_le (Nat.le_add_left n start), Nat.add_sub_cancel, h]

theorem reg_of_field {r : Reg} {k : Nat} (h : w.extractLsb' k 3 = fieldOfReg r) : (w.extractLsb' k 3).toFin = r := by
  rw [h, toFin_fieldOfReg]

theorem bit_of_field {b : Bool} {k : Nat} (h : w.extractLsb' k 1 = BitVec.ofBool b) : w.getLsbD k = b := by
  simpa using congrArg (BitVec.getLsbD · 0) h

theorem toInt_field_last {high : BitVec m} (hn : 0 < n) (h : FitsSigned n off) :
    ((high ++ BitVec.ofInt n off).extractLsb' 0 n).toInt = off := by
  rw [field_last, toInt_ofInt_of_fits hn h]

/-! ### The fields of the rows that several instructions share -/

section
variable {op : BitVec 4} {dr sr1 sr2 : Reg} {low : BitVec 6}

theorem fields_of_reg_offset9 (hw : w = op ++ fieldOfReg dr ++ BitVec.ofInt 9 off) (h : FitsSigned 9 off) :
    reg11 w = dr ∧ (offset9Of w).toInt = off := by
  subst hw
  exact ⟨reg_of_field (field_above 0 field_last), toInt_field_last (by decide) h⟩

theorem fields_of_regs_low6 (hw : w = op ++ fieldOfReg dr ++ fieldOfReg sr1 ++ low) : reg11 w = dr ∧ reg8 w = sr1 := by
  subst hw
  exact ⟨reg_of_field (field_above 3 (field_above 0 field_last)), reg_of_field (field_above 0 field_last)⟩

theorem fields_of_regs_reg (hw : w = op ++ fieldOfReg dr ++ fieldOfReg sr1 ++ 0b0#1 ++ 0b00#2 ++ fieldOfReg sr2) :
    w.getLsbD 5 = false ∧ reg11 w = dr ∧ reg8 w = sr1 ∧ reg2 w = sr2 := by
  subst hw
  exact ⟨bit_of_field (field_above 2 (field_above 0 field_last)),
    reg_of_field (field_above 6 (field_above 4 (field_above 3 (field_above 0 field_last)))),
    reg_of_field (field_above 3 (field_above 1 (field_above 0 field_last))), reg_of_field field_last⟩

theorem fields_of_regs_imm5 (hw : w = op ++ fieldOfReg dr ++ fieldOfReg sr1 ++ 0b1#1 ++ BitVec.ofInt 5 off)
    (h : FitsSigned 5 off) :
    w.getLsbD 5 = true ∧ reg11 w = dr ∧ reg8 w = sr1 ∧ (imm5Of w).toInt = off := by
  subst hw
  exact ⟨bit_of_field (field_above 0 field_last),
    reg_of_field (field_above 4 (field_above 3 (field_above 0 field_last))),
    reg_of_field (field_above 1 (field_above 0 field_last)), toInt_field_last (by decide) h⟩

end

/-! ### Decoding an encoding -/

theorem decode_encode (h : i.WellFormed) : decode (encode i) = i := by
  cases i with
  | br bn bz bp off =>
    rw [(Layout.br (OpcodeBits.br bn bz bp off)).decode_eq, Instr.br.injEq]
    exact ⟨bit_of_field (field_above 2 (field_above 1 (field_above 0 field_last))),
      bit_of_field (field_above 1 (field_above 0 field_last)), bit_of_field (field_above 0 field_last),
      toInt_field_last (by decide) (of_decide_eq_true h)⟩
  | addReg dr sr1 sr2 =>
    obtain ⟨hmode, hfields⟩ := fields_of_regs_reg (w := encode (.addReg dr sr1 sr2)) rfl
    rw [(Layout.addReg (OpcodeBits.addReg dr sr1 sr2) hmode).decode_eq, Instr.addReg.injEq]
    exact hfields
  | addImm dr sr1 imm5 =>
    obtain ⟨hmode, hfields⟩ := fields_of_regs_imm5 (w := encode (.addImm dr sr1 imm5)) rfl (of_decide_eq_true h)
    rw [(Layout.addImm (OpcodeBits.addImm dr sr1 imm5) hmode).decode_eq, Instr.addImm.injEq]
    exact hfields
  | ld dr off =>
    rw [(Layout.ld (OpcodeBits.ld dr off)).decode_eq, Instr.ld.injEq]
    exact fields_of_reg_offset9 rfl (of_decide_eq_true h)
  | st sr off =>
    rw [(Layout.st (OpcodeBits.st sr off)).decode_eq, Instr.st.injEq]
    exact fields_of_reg_offset9 rfl (of_decide_eq_true h)
  | jsr off =>
    have hmode : (encode (.jsr off)).getLsbD 11 = true := bit_of_field (field_above 0 field_last)
    rw [(Layout.jsr (OpcodeBits.jsr off) hmode).decode_eq, Instr.jsr.injEq]
    exact toInt_field_last (by decide) (of_decide_eq_true h)
  | jsrr baseR =>
    have hmode : (encode (.jsrr baseR)).getLsbD 11 = false :=
      bit_of_field (field_above 5 (field_above 2 (field_above 0 field_last)))
    rw [(Layout.jsrr (OpcodeBits.jsrr baseR) hmode).decode_eq, Instr.jsrr.injEq]
    exact reg_of_field (field_above 0 field_last)
  | andReg dr sr1 sr2 =>
    obtain ⟨hmode, hfields⟩ := fields_of_regs_reg (w := encode (.andReg dr sr1 sr2)) rfl
    rw [(Layout.andReg (OpcodeBits.andReg dr sr1 sr2) hmode).decode_eq, Instr.andReg.injEq]
    exact hfields
  | andImm dr sr1 imm5 =>
    obtain ⟨hmode, hfields⟩ := fields_of_regs_imm5 (w := encode (.andImm dr sr1 imm5)) rfl (of_decide_eq_true h)
    rw [(Layout.andImm (OpcodeBits.andImm dr sr1 imm5) hmode).decode_eq, Instr.andImm.injEq]
    exact hfields
  | ldr dr baseR off =>
    obtain ⟨hdr, hbase⟩ := fields_of_regs_low6 (w := encode (.ldr dr baseR off)) rfl
    rw [(Layout.ldr (OpcodeBits.ldr dr baseR off)).decode_eq, Instr.ldr.injEq]
    exact ⟨hdr, hbase, toInt_field_last (by decide) (of_decide_eq_true h)⟩
  | str sr baseR off =>
    obtain ⟨hsr, hbase⟩ := fields_of_regs_low6 (w := encode (.str sr baseR off)) rfl
    rw [(Layout.str (OpcodeBits.str sr baseR off)).decode_eq, Instr.str.injEq]
    exact ⟨hsr, hbase, toInt_field_last (by decide) (of_decide_eq_true h)⟩
  | rti => exact (Layout.rti OpcodeBits.rti).decode_eq
  | not dr sr =>
    rw [(Layout.not (OpcodeBits.not dr sr)).decode_eq, Instr.not.injEq]
    exact fields_of_regs_low6 rfl
  | ldi dr off =>
    rw [(Layout.ldi (OpcodeBits.ldi dr off)).decode_eq, Instr.ldi.injEq]
    exact fields_of_reg_offset9 rfl (of_decide_eq_true h)
  | sti sr off =>
    rw [(Layout.sti (OpcodeBits.sti sr off)).decode_eq, Instr.sti.injEq]
    exact fields_of_reg_offset9 rfl (of_decide_eq_true h)
  | jmp baseR =>
    rw [(Layout.jmp (OpcodeBits.jmp baseR)).decode_eq, Instr.jmp.injEq]
    exact reg_of_field (field_above 0 field_last)
  | reserved13 => exact (Layout.reserved13 OpcodeBits.reserved13).decode_eq
  | lea dr off =>
    rw [(Layout.lea (OpcodeBits.lea dr off)).decode_eq, Instr.lea.injEq]
    exact fields_of_reg_offset9 rfl (of_decide_eq_true h)
  | trap vector =>
    have hvector : vector8Of (encode (.trap vector)) = BitVec.ofNat 8 vector := field_last
    have hfits : vector < 2 ^ 8 := of_decide_eq_true h
    rw [(Layout.trap (OpcodeBits.trap vector)).decode_eq, hvector, BitVec.toNat_ofNat, Nat.mod_eq_of_lt hfits]

/-- The bytes of an instruction hold its Word, whatever follows them. -/
theorem decodeBytes_encodeBytes_append (i : Instr) (rest : List Byte) :
    decodeBytes (encodeBytes i ++ rest) = .ok (decode (encode i), rest) := by
  rw [encodeBytes, wordBytes, List.cons_append, List.cons_append, List.nil_append, decodeBytes, wordOfBytes_halves]

/-- Settles O10: the fields of the encoding are the operands, so its layout is the instruction. -/
theorem decodeInvertsEncode : Obligations.DecodeInvertsEncode := by
  unfold Obligations.DecodeInvertsEncode
  intro i h
  refine ⟨decode_encode h, fun rest => ?_⟩
  rw [decodeBytes_encodeBytes_append, decode_encode h]

end Sys2Proof
end

section
/-! PROOFS. Every Word decodes to a well-formed instruction, whose encoding has the used bits of the Word (30_encoding.md sections
3 and 4). -/

namespace Sys2Proof

open Sys2Proof.Machine Sys2Proof.Claims

variable {w : Word} {i : Instr} {m n : Nat} {op : BitVec 4}

/-! ### A Word put together again from its fields -/

/-- Two neighbouring fields are one. -/
theorem append_fields (w : Word) (low n m : Nat) :
    w.extractLsb' (low + n) m ++ w.extractLsb' low n = w.extractLsb' low (m + n) :=
  BitVec.extractLsb'_append_extractLsb'_eq_extractLsb' rfl

theorem ofBool_getLsbD (w : Word) (k : Nat) : BitVec.ofBool (w.getLsbD k) = w.extractLsb' k 1 := by
  ext i hi
  simp [show i = 0 by omega]

theorem append_of_flags_offset9 (hop : opcodeOf w = op) :
    op ++ BitVec.ofBool (w.getLsbD 11) ++ BitVec.ofBool (w.getLsbD 10) ++ BitVec.ofBool (w.getLsbD 9) ++
      BitVec.ofInt 9 (offset9Of w).toInt = w := by
  rw [← hop, BitVec.ofInt_toInt, ofBool_getLsbD, ofBool_getLsbD, ofBool_getLsbD, append_fields w 11 1 4,
    append_fields w 10 1 5, append_fields w 9 1 6, append_fields w 0 9 7]
  exact BitVec.extractLsb'_eq_self

theorem append_of_mode_offset11 (hop : opcodeOf w = op) (hmode : w.getLsbD 11 = true) :
    op ++ BitVec.ofBool true ++ BitVec.ofInt 11 (offset11Of w).toInt = w := by
  rw [← hop, ← hmode, BitVec.ofInt_toInt, ofBool_getLsbD, append_fields w 11 1 4, append_fields w 0 11 5]
  exact BitVec.extractLsb'_eq_self

theorem append_of_reg_offset9 (hop : opcodeOf w = op) :
    op ++ fieldOfReg (reg11 w) ++ BitVec.ofInt 9 (offset9Of w).toInt = w := by
  rw [← hop, BitVec.ofInt_toInt, fieldOfReg_toFin, append_fields w 9 3 4, append_fields w 0 9 7]
  exact BitVec.extractLsb'_eq_self

theorem append_of_regs_low6 (hop : opcodeOf w = op) :
    op ++ fieldOfReg (reg11 w) ++ fieldOfReg (reg8 w) ++ w.extractLsb' 0 6 = w := by
  rw [← hop, fieldOfReg_toFin, fieldOfReg_toFin, append_fields w 9 3 4, append_fields w 6 3 7, append_fields w 0 6 10]
  exact BitVec.extractLsb'_eq_self

theorem append_of_regs_offset6 (hop : opcodeOf w = op) :
    op ++ fieldOfReg (reg11 w) ++ fieldOfReg (reg8 w) ++ BitVec.ofInt 6 (offset6Of w).toInt = w := by
  rw [BitVec.ofInt_toInt, append_of_regs_low6 hop]

theorem append_of_regs_imm5 (hop : opcodeOf w = op) (hmode : w.getLsbD 5 = true) :
    op ++ fieldOfReg (reg11 w) ++ fieldOfReg (reg8 w) ++ BitVec.ofBool true ++ BitVec.ofInt 5 (imm5Of w).toInt = w := by
  rw [← hop, ← hmode, BitVec.ofInt_toInt, ofBool_getLsbD, fieldOfReg_toFin, fieldOfReg_toFin, append_fields w 9 3 4,
    append_fields w 6 3 7, append_fields w 5 1 10, append_fields w 0 5 11]
  exact BitVec.extractLsb'_eq_self

theorem append_of_regs_reg (hop : opcodeOf w = op) (hmode : w.getLsbD 5 = false) :
    op ++ fieldOfReg (reg11 w) ++ fieldOfReg (reg8 w) ++ BitVec.ofBool false ++ w.extractLsb' 3 2 ++ fieldOfReg (reg2 w) =
      w := by
  rw [← hop, ← hmode, ofBool_getLsbD, fieldOfReg_toFin, fieldOfReg_toFin, fieldOfReg_toFin, append_fields w 9 3 4,
    append_fields w 6 3 7, append_fields w 5 1 10, append_fields w 3 2 11, append_fields w 0 3 13]
  exact BitVec.extractLsb'_eq_self

theorem append_of_mode_reg8 (hop : opcodeOf w = op) (hmode : w.getLsbD 11 = false) :
    op ++ BitVec.ofBool false ++ w.extractLsb' 9 2 ++ fieldOfReg (reg8 w) ++ w.extractLsb' 0 6 = w := by
  rw [← hop, ← hmode, ofBool_getLsbD, fieldOfReg_toFin, append_fields w 11 1 4, append_fields w 9 2 5,
    append_fields w 6 3 7, append_fields w 0 6 10]
  exact BitVec.extractLsb'_eq_self

theorem append_of_reg8 (hop : opcodeOf w = op) : op ++ w.extractLsb' 9 3 ++ fieldOfReg (reg8 w) ++ w.extractLsb' 0 6 = w :=
  append_of_regs_low6 hop

theorem append_of_low12 (hop : opcodeOf w = op) : op ++ w.extractLsb' 0 12 = w := by
  rw [← hop, append_fields w 0 12 4]
  exact BitVec.extractLsb'_eq_self

theorem append_of_vector8 (hop : opcodeOf w = op) : op ++ w.extractLsb' 8 4 ++ BitVec.ofNat 8 (vector8Of w).toNat = w := by
  rw [← hop, BitVec.ofNat_toNat, BitVec.setWidth_eq, append_fields w 8 4 4, append_fields w 0 8 8]
  exact BitVec.extractLsb'_eq_self

/-! ### Bits that no field uses (30_encoding.md R72)

A mask that leaves out some parts of a Word hides what they hold. -/

section
variable {p q : Nat} {a : BitVec m} {b b' : BitVec n} {c : BitVec p} {d d' : BitVec q}

theorem and_hides_last (k : BitVec m) : (a ++ b) &&& (k ++ 0#n) = (a ++ b') &&& (k ++ 0#n) := by
  simp only [BitVec.and_append, BitVec.and_zero]

theorem and_hides_middle (k : BitVec m) (l : BitVec p) :
    (a ++ b ++ c) &&& (k ++ 0#n ++ l) = (a ++ b' ++ c) &&& (k ++ 0#n ++ l) := by
  simp only [BitVec.and_append, BitVec.and_zero]

theorem and_hides_middle_and_last (k : BitVec m) (l : BitVec p) :
    (a ++ b ++ c ++ d) &&& (k ++ 0#n ++ l ++ 0#q) = (a ++ b' ++ c ++ d') &&& (k ++ 0#n ++ l ++ 0#q) := by
  simp only [BitVec.and_append, BitVec.and_zero]

end

/-- The encoding of the instruction of a Word differs from it in ignored bits only. -/
theorem Layout.encode_and_usedBits (h : Layout w i) : encode i &&& usedBits i = w &&& usedBits i := by
  cases h with
  | br hop => exact congrArg (· &&& 0xFFFF#16) (append_of_flags_offset9 hop)
  | addImm hop hmode | andImm hop hmode => exact congrArg (· &&& 0xFFFF#16) (append_of_regs_imm5 hop hmode)
  | ld hop | st hop | ldi hop | sti hop | lea hop => exact congrArg (· &&& 0xFFFF#16) (append_of_reg_offset9 hop)
  | jsr hop hmode => exact congrArg (· &&& 0xFFFF#16) (append_of_mode_offset11 hop hmode)
  | ldr hop | str hop => exact congrArg (· &&& 0xFFFF#16) (append_of_regs_offset6 hop)
  | addReg hop hmode | andReg hop hmode =>
    conv_rhs => rw [← append_of_regs_reg hop hmode]
    exact and_hides_middle 0x7FF#11 0x7#3
  | jsrr hop hmode =>
    conv_rhs => rw [← append_of_mode_reg8 hop hmode]
    exact and_hides_middle_and_last 0x1F#5 0x7#3
  | rti hop | reserved13 hop =>
    conv_rhs => rw [← append_of_low12 hop]
    exact and_hides_last 0xF#4
  | not hop =>
    conv_rhs => rw [← append_of_regs_low6 hop]
    exact and_hides_last 0x3FF#10
  | jmp hop =>
    conv_rhs => rw [← append_of_reg8 hop]
    exact and_hides_middle_and_last 0xF#4 0x7#3
  | trap hop =>
    conv_rhs => rw [← append_of_vector8 hop]
    exact and_hides_middle 0xF#4 0xFF#8

theorem Layout.wellFormed (h : Layout w i) : i.WellFormed := by
  cases h with
  | addReg | jsrr | andReg | rti | not | jmp | reserved13 => rfl
  | br | addImm | ld | st | jsr | andImm | ldr | str | ldi | sti | lea => exact decide_eq_true (fits_toInt _)
  | trap => exact decide_eq_true (vector8Of w).isLt

/-- Settles O11: by the layout of the Word. -/
theorem encodeRestoresTheUsedBits : Obligations.EncodeRestoresTheUsedBits := by
  unfold Obligations.EncodeRestoresTheUsedBits
  intro w
  exact ⟨(layout_decode w).wellFormed, (layout_decode w).encode_and_usedBits⟩

end Sys2Proof
end

section
/-! PROOFS. Every Word matches one row of the opcode table, that of its instruction (30_encoding.md section 5). -/

namespace Sys2Proof

open Sys2Proof.Machine Sys2Proof.Claims

variable {w : Word} {i : Instr} {op : BitVec 4} {row row' : Word × Word}

/-! ### The bits that a mask of the table keeps -/

theorem and_F000 (hop : opcodeOf w = op) : w &&& 0xF000#16 = op ++ 0#12 := by
  calc w &&& 0xF000#16
      = (op ++ w.extractLsb' 0 12) &&& (BitVec.allOnes 4 ++ 0#12) := by rw [append_of_low12 hop]; rfl
    _ = op ++ 0#12 := by simp only [BitVec.and_append, BitVec.and_zero, BitVec.and_allOnes]

theorem and_F800 (hop : opcodeOf w = op) : w &&& 0xF800#16 = op ++ BitVec.ofBool (w.getLsbD 11) ++ 0#11 := by
  have hw : op ++ BitVec.ofBool (w.getLsbD 11) ++ w.extractLsb' 0 11 = w := by
    rw [← hop, ofBool_getLsbD, append_fields w 11 1 4, append_fields w 0 11 5]
    exact BitVec.extractLsb'_eq_self
  calc w &&& 0xF800#16
      = (op ++ BitVec.ofBool (w.getLsbD 11) ++ w.extractLsb' 0 11) &&& (BitVec.allOnes 4 ++ BitVec.allOnes 1 ++ 0#11) := by
        rw [hw]; rfl
    _ = op ++ BitVec.ofBool (w.getLsbD 11) ++ 0#11 := by
        simp only [BitVec.and_append, BitVec.and_zero, BitVec.and_allOnes]

theorem and_F020 (hop : opcodeOf w = op) : w &&& 0xF020#16 = op ++ 0#6 ++ BitVec.ofBool (w.getLsbD 5) ++ 0#5 := by
  have hw : op ++ w.extractLsb' 6 6 ++ BitVec.ofBool (w.getLsbD 5) ++ w.extractLsb' 0 5 = w := by
    rw [← hop, ofBool_getLsbD, append_fields w 6 6 4, append_fields w 5 1 10, append_fields w 0 5 11]
    exact BitVec.extractLsb'_eq_self
  calc w &&& 0xF020#16
      = (op ++ w.extractLsb' 6 6 ++ BitVec.ofBool (w.getLsbD 5) ++ w.extractLsb' 0 5) &&&
          (BitVec.allOnes 4 ++ 0#6 ++ BitVec.allOnes 1 ++ 0#5) := by rw [hw]; rfl
    _ = op ++ 0#6 ++ BitVec.ofBool (w.getLsbD 5) ++ 0#5 := by
        simp only [BitVec.and_append, BitVec.and_zero, BitVec.and_allOnes]

/-! ### The row of a Word -/

/-- A Word matches the row of its layout. -/
theorem Layout.matches_rowOf (h : Layout w i) : w &&& (rowOf i).1 = (rowOf i).2 := by
  cases h with
  | addReg hop hmode | addImm hop hmode | andReg hop hmode | andImm hop hmode =>
    exact (and_F020 hop).trans (by rw [hmode]; rfl)
  | jsr hop hmode | jsrr hop hmode => exact (and_F800 hop).trans (by rw [hmode]; rfl)
  | br hop | ld hop | st hop | ldr hop | str hop | rti hop | not hop | ldi hop | sti hop | jmp hop | reserved13 hop
  | lea hop | trap hop => exact and_F000 hop

theorem rowOf_mem_tableRows (i : Instr) : rowOf i ∈ tableRows := by
  cases i <;> simp [rowOf]

/-- Of two rows of the table each fixes a bit that the other fixes to the opposite value. -/
theorem tableRows_pairwise : tableRows.Pairwise fun row row' => row.2 &&& row'.1 ≠ row'.2 &&& row.1 := by decide

/-- No Word matches two rows. -/
theorem row_unique (hrow : row ∈ tableRows) (hrow' : row' ∈ tableRows) (h : w &&& row.1 = row.2)
    (h' : w &&& row'.1 = row'.2) : row = row' := by
  by_contra hne
  have : Std.Symm fun row row' : Word × Word => row.2 &&& row'.1 ≠ row'.2 &&& row.1 := ⟨fun _ _ => Ne.symm⟩
  refine tableRows_pairwise.forall hrow hrow' hne ?_
  rw [← h, ← h', BitVec.and_assoc, BitVec.and_assoc, BitVec.and_comm row.1]

/-- Settles O9: a Word matches the row of its layout, and no second one. -/
theorem everyWordMatchesExactlyOneRow : Obligations.EveryWordMatchesExactlyOneRow := by
  unfold Obligations.EveryWordMatchesExactlyOneRow
  intro w
  have hmatch := (layout_decode w).matches_rowOf
  have hmem := rowOf_mem_tableRows (decode w)
  refine ⟨hmem, fun row hrow => ⟨fun h => row_unique hrow hmem h hmatch, ?_⟩⟩
  rintro rfl
  exact hmatch

/-- Settles O12: each of the ten Words is decoded as it stands. -/
theorem exampleWordsDecode : Obligations.ExampleWordsDecode := by
  unfold Obligations.ExampleWordsDecode
  decide

end Sys2Proof
end

section
/-! PROOFS. The Cycle Driver (40_fetch_and_cycle.md section 1): what a step is in each case of its checks, the invariant it keeps,
and what a step that faults leaves. -/

namespace Sys2Proof.Machine

open Sys2Proof.Claims

variable {s t : State} {i : Instr} {raised : Raise}

/-! ### The step, case by case -/

theorem step_of_sentinel (hs : s.run = .running) (hp : s.pc = Config.haltSentinel) : step s = .next s.halt := by
  simp only [step, State.cycle, hs, hp, if_true]

theorem step_of_fetch_outOfBounds (hs : s.run = .running) (hp : s.pc ≠ Config.haltSentinel) (hb : ¬ InBounds s.pc) :
    step s = .next (s.takeFault ⟨.outOfBoundsAddress, s.pc, .fetch⟩) := by
  simp only [step, State.cycle, hs, if_neg hp, State.fetchAndExecute, State.fetch_eq, if_neg hb]

theorem step_of_executes (h : Executes s) : step s = exec (decode (s.mem.readWord s.pc)) s := by
  obtain ⟨hs, hp, hb⟩ := h
  simp only [step, State.cycle, hs, if_neg hp, State.fetchAndExecute, State.fetch_eq, if_pos (show InBounds s.pc from hb)]

/-- An executor always answers a next state (40_fetch_and_cycle.md R91, R92). -/
theorem exists_exec (i : Instr) (s : State) : ∃ t, exec i s = .next t := by
  rw [exec_eq_finish]
  cases effect i s with
  | ok l => exact ⟨_, State.finish_ok⟩
  | error raised => exact ⟨_, State.finish_error⟩

theorem exists_step (s : State) : ∃ t, step s = .next t := by
  by_cases hs : s.run = .running
  · by_cases hp : s.pc = Config.haltSentinel
    · exact ⟨_, step_of_sentinel hs hp⟩
    · by_cases hb : InBounds s.pc
      · rw [step_of_executes ⟨hs, hp, hb⟩]
        exact exists_exec _ s
      · exact ⟨_, step_of_fetch_outOfBounds hs hp hb⟩
  · exact ⟨s, step_of_stopped hs⟩

/-! ### The invariant -/

/-- A fault that the fetch or an instruction of the block raises leaves a record that explains it. -/
theorem State.inv_takeFault (hinv : s.Inv) (hp : s.pc ≠ Config.haltSentinel) (hkind : raised.kind = .outOfBoundsAddress)
    (haddr : ¬ InBounds raised.addr) (hfetch : raised.access = .fetch → raised.addr = s.pc)
    (hdata : raised.access ≠ .fetch → InBounds s.pc) : (s.takeFault raised).Inv where
  memory := hinv.memory
  halted h := nomatch h
  faulted record h := by
    cases h
    exact ⟨hkind, haddr, rfl, hp, hfetch, hdata⟩

theorem State.inv_commit {l : Latch} (hinv : s.Inv) (hs : s.run = .running) (hl : effect i s = .ok l) :
    (s.commit l).Inv where
  memory := by
    obtain hnone | ⟨a, v, hsome, ha⟩ := effect_write hl
    · rw [State.commit_mem, hnone]
      exact hinv.memory
    · rw [State.commit_mem, hsome]
      exact Memory.wf_writeWord hinv.memory ha
  halted h := by simp [hs] at h
  faulted record h := by simp [hs] at h

theorem State.inv_halt (hinv : s.Inv) (hp : s.pc = Config.haltSentinel) : s.halt.Inv where
  memory := hinv.memory
  halted _ := hp
  faulted _ h := nomatch h

theorem step_keeps_inv (hinv : s.Inv) (h : step s = .next t) : t.Inv := by
  obtain ⟨-, rfl⟩ | ⟨-, hp, rfl⟩ | ⟨-, hp, hb, rfl⟩ | ⟨hs, hp, hb, hexec⟩ := step_cases h
  · exact hinv
  · exact State.inv_halt hinv hp
  · exact State.inv_takeFault hinv hp rfl hb (fun _ => rfl) (fun hne => absurd rfl hne)
  · obtain ⟨l, hl, rfl⟩ | ⟨raised, hl, rfl⟩ := exec_cases hexec
    · exact State.inv_commit hinv hs hl
    · obtain ⟨hkind, haddr, haccess⟩ := effect_raises hl
      exact State.inv_takeFault hinv hp hkind haddr (fun hf => absurd hf haccess) (fun _ => hb)

/-! ### A step that faults -/

/-- All a step that enters FAULTED does: it takes a fault at an address out of bounds. -/
theorem step_faults_cases (hs : s.run = .running) (h : step s = .next t) (ht : t.IsFaulted) :
    ∃ a access, ¬ InBounds a ∧ t = faultedAt s a access := by
  obtain ⟨record, hr⟩ := ht
  obtain ⟨hstopped, -⟩ | ⟨-, -, rfl⟩ | ⟨-, -, hb, rfl⟩ | ⟨-, -, -, hexec⟩ := step_cases h
  · exact absurd hs hstopped
  · cases hr
  · exact ⟨_, _, hb, rfl⟩
  · obtain ⟨l, -, rfl⟩ | ⟨raised, hl, rfl⟩ := exec_cases hexec
    · simp [hs] at hr
    · obtain ⟨hkind, haddr, -⟩ := effect_raises hl
      exact ⟨raised.addr, raised.access, haddr, by rw [faultedAt, State.takeFault, hkind]⟩

end Sys2Proof.Machine

namespace Sys2Proof

open Sys2Proof.Machine Sys2Proof.Claims

/-- Settles O54: by what a step can do, each case keeps the invariant. -/
theorem stepKeepsTheInvariant : Obligations.StepKeepsTheInvariant := by
  unfold Obligations.StepKeepsTheInvariant
  exact fun s t hinv h => step_keeps_inv hinv h

/-- Settles O2: the launch memory is empty and the engine RUNNING, so the clauses about HALTED and FAULTED speak of no case. -/
theorem resetMeetsTheInvariant : Obligations.ResetMeetsTheInvariant := by
  unfold Obligations.ResetMeetsTheInvariant
  exact ⟨Memory.wf_empty, fun h => (nomatch h), fun _ h => (nomatch h)⟩

/-- Settles O43: it is the step's case past its checks. -/
theorem stepRunsTheDecodedInstruction : Obligations.StepRunsTheDecodedInstruction := by
  unfold Obligations.StepRunsTheDecodedInstruction
  exact fun s h => step_of_executes h

/-- Settles O45: a stopped engine steps to itself and reports its run state. -/
theorem stoppedEngineIgnoresSteps : Obligations.StoppedEngineIgnoresSteps := by
  unfold Obligations.StoppedEngineIgnoresSteps
  refine ⟨fun s hs => ?halted, fun s record hs => ?faulted⟩
  all_goals
    have hstep : step s = .next s := step_of_stopped (by simp [hs])
    refine ⟨hstep, ?_⟩
    rw [State.stepCommand_next hstep, State.result, hs]

/-- Settles O46: it is the step's case at the sentinel, with the result that HALTED reports. -/
theorem haltCheckChangesOnlyTheRunState : Obligations.HaltCheckChangesOnlyTheRunState := by
  unfold Obligations.HaltCheckChangesOnlyTheRunState
  intro s hs hp
  have hstep := step_of_sentinel hs hp
  exact ⟨hstep, State.stepCommand_next hstep⟩

/-- Settles O47: it is the step's case of a PC out of bounds; such a PC is not the sentinel. -/
theorem fetchOutOfBoundsFaults : Obligations.FetchOutOfBoundsFaults := by
  unfold Obligations.FetchOutOfBoundsFaults
  intro s hs hb
  have hp : s.pc ≠ Config.haltSentinel := fun h => by simp [h] at hb
  have hstep := step_of_fetch_outOfBounds hs hp (Nat.not_lt.mpr hb)
  exact ⟨hstep, State.stepCommand_next hstep⟩

/-- Settles O48: the step has a next state in each case of its checks, and the kind of a fault is what the fetch or an
instruction raises. -/
theorem everyStepHasANextState : Obligations.EveryStepHasANextState := by
  unfold Obligations.EveryStepHasANextState
  intro s
  obtain ⟨t, h⟩ := exists_step s
  refine ⟨t, h, ?_⟩
  obtain ⟨-, rfl⟩ | ⟨hs, -, rfl⟩ | ⟨hs, -, -, rfl⟩ | ⟨hs, -, -, hexec⟩ := step_cases h
  · exact .inl rfl
  · exact .inr (.inl ⟨hs, rfl⟩)
  · exact .inr (.inr ⟨_, hs, rfl, rfl⟩)
  · obtain ⟨l, -, rfl⟩ | ⟨raised, hl, rfl⟩ := exec_cases hexec
    · exact .inl rfl
    · exact .inr (.inr ⟨_, hs, rfl, (effect_raises hl).1⟩)

/-- Settles O50: a step that enters FAULTED takes a fault, which writes the run state alone. -/
theorem faultsArePrecise : Obligations.FaultsArePrecise := by
  unfold Obligations.FaultsArePrecise
  intro s t hs h ht
  obtain ⟨a, access, ha, rfl⟩ := step_faults_cases hs h ht
  exact ⟨rfl, rfl, rfl, _, rfl, rfl, Nat.not_lt.mp ha⟩

/-- Settles O35: the one kind of fault that a step takes is the other one, and the alternative policy is the executor's own. -/
theorem unimplementedOpcodePolicies : Obligations.UnimplementedOpcodePolicies := by
  unfold Obligations.UnimplementedOpcodePolicies
  refine ⟨?never, fun s => rfl⟩
  case never =>
    intro s t record hs h hr
    obtain ⟨a, access, -, rfl⟩ := step_faults_cases hs h ⟨record, hr⟩
    cases hr
    simp

end Sys2Proof
end

section
/-! PROOFS. The accesses of a step (60_exceptions.md section 1): the first one out of bounds decides it, and a step with none
commits. -/

namespace Sys2Proof.Machine

open Sys2Proof.Claims

variable {s : State} {a ea : Word} {k : Access} {rest : List (Word × Access)}
  {e : Except Raise Latch} {r : Reg} {off : Int}

theorem firstOutOfBounds_cons_inBounds (h : InBounds a) : firstOutOfBounds ((a, k) :: rest) = firstOutOfBounds rest :=
  List.find?_cons_of_neg (by simpa using h)

theorem firstOutOfBounds_cons_outOfBounds (h : ¬ InBounds a) : firstOutOfBounds ((a, k) :: rest) = some (a, k) :=
  List.find?_cons_of_pos (by simpa using h)

/-- What an executor answers goes by a list of accesses: the first one out of bounds is what it raises, and it raises nothing if
there is none. -/
def DecidedBy (accesses : List (Word × Access)) (e : Except Raise Latch) : Prop :=
  (∀ a k, firstOutOfBounds accesses = some (a, k) → e = .error ⟨.outOfBoundsAddress, a, k⟩) ∧
  (firstOutOfBounds accesses = none → ∃ l, e = .ok l)

theorem decidedBy_nil (l : Latch) : DecidedBy [] (.ok l) :=
  ⟨fun _ _ h => (nomatch h), fun _ => ⟨l, rfl⟩⟩

theorem decidedBy_cons (hin : InBounds a → DecidedBy rest e)
    (hout : ¬ InBounds a → e = .error ⟨.outOfBoundsAddress, a, k⟩) : DecidedBy ((a, k) :: rest) e := by
  by_cases h : InBounds a
  · rw [DecidedBy, firstOutOfBounds_cons_inBounds h]
    exact hin h
  · rw [DecidedBy, firstOutOfBounds_cons_outOfBounds h]
    refine ⟨fun b j hb => ?_, fun hnone => nomatch hnone⟩
    cases hb
    exact hout h

theorem State.loadFrom_decidedBy : DecidedBy [(ea, .read)] (s.loadFrom r ea) := by
  rw [State.loadFrom_eq]
  exact decidedBy_cons (fun h => if_pos h ▸ decidedBy_nil _) (fun h => if_neg h)

theorem State.storeTo_decidedBy : DecidedBy [(ea, .write)] (s.storeTo r ea) := by
  rw [State.storeTo_eq]
  exact decidedBy_cons (fun h => if_pos h ▸ decidedBy_nil _) (fun h => if_neg h)

theorem State.loadIndirect_decidedBy :
    DecidedBy [(s.pcRelative off, .read), (s.mem.readWord (s.pcRelative off), .read)] (s.loadIndirect r off) := by
  rw [State.loadIndirect_eq]
  exact decidedBy_cons (fun h => if_pos h ▸ State.loadFrom_decidedBy) (fun h => if_neg h)

theorem State.storeIndirect_decidedBy :
    DecidedBy [(s.pcRelative off, .read), (s.mem.readWord (s.pcRelative off), .write)] (s.storeIndirect r off) := by
  rw [State.storeIndirect_eq]
  exact decidedBy_cons (fun h => if_pos h ▸ State.storeTo_decidedBy) (fun h => if_neg h)

theorem effect_decidedBy (i : Instr) (s : State) : DecidedBy (dataAccesses i s) (effect i s) := by
  cases i with
  | ld | ldr => exact State.loadFrom_decidedBy
  | st | str => exact State.storeTo_decidedBy
  | ldi => exact State.loadIndirect_decidedBy
  | sti => exact State.storeIndirect_decidedBy
  | br | addReg | addImm | jsr | jsrr | andReg | andImm | rti | not | jmp | reserved13 | lea | trap => exact decidedBy_nil _

/-- The accesses of a step, in the order in which they are checked (60_exceptions.md R152). -/
def stepAccesses (s : State) : List (Word × Access) :=
  (s.pc, .fetch) :: dataAccesses (decode (s.mem.readWord s.pc)) s

theorem step_of_access_outOfBounds (hs : s.run = .running) (hp : s.pc ≠ Config.haltSentinel)
    (h : firstOutOfBounds (stepAccesses s) = some (a, k)) : step s = .next (faultedAt s a k) := by
  by_cases hb : InBounds s.pc
  · rw [stepAccesses, firstOutOfBounds_cons_inBounds hb] at h
    rw [step_of_executes ⟨hs, hp, hb⟩, exec_eq_finish, (effect_decidedBy _ s).1 a k h]
    rfl
  · rw [stepAccesses, firstOutOfBounds_cons_outOfBounds hb] at h
    cases h
    exact step_of_fetch_outOfBounds hs hp hb

theorem step_of_accesses_inBounds (hs : s.run = .running) (hp : s.pc ≠ Config.haltSentinel)
    (h : firstOutOfBounds (stepAccesses s) = none) : ∃ l, step s = .next (s.commit l) := by
  by_cases hb : InBounds s.pc
  · rw [stepAccesses, firstOutOfBounds_cons_inBounds hb] at h
    obtain ⟨l, hl⟩ := (effect_decidedBy _ s).2 h
    exact ⟨l, by rw [step_of_executes ⟨hs, hp, hb⟩, exec_eq_finish, hl, State.finish_ok]⟩
  · rw [stepAccesses, firstOutOfBounds_cons_outOfBounds hb] at h
    cases h

end Sys2Proof.Machine

namespace Sys2Proof

open Sys2Proof.Machine Sys2Proof.Claims

/-- Settles O49: the step is the one that the first failing access, or its absence, makes it. -/
theorem firstFailingAccessDecidesTheStep : Obligations.FirstFailingAccessDecidesTheStep := by
  unfold Obligations.FirstFailingAccessDecidesTheStep
  intro s t hs hp h
  split
  next a access hfirst =>
    rw [step_of_access_outOfBounds hs hp hfirst] at h
    exact (Host.Outcome.next.inj h).symm
  next hnone =>
    obtain ⟨l, hl⟩ := step_of_accesses_inBounds hs hp hnone
    rw [hl] at h
    cases h
    exact ⟨hs, rfl⟩

end Sys2Proof
end

section
/-! PROOFS. Runs (40_fetch_and_cycle.md section 3): `run_for` and `run_to_completion` as iterated steps, the absorbing states, and
the runs that meet no fault. -/

namespace Sys2Proof.Machine

open Sys2Proof.Claims

variable {s t u : State} {n m : Nat} {result : StepResult}

/-! ### Chaining runs -/

theorem State.reachesIn_of_stopped (hs : s.run ≠ .running) (n : Nat) : s.ReachesIn n s := by
  induction n with
  | zero => exact State.reachesIn_zero.mpr rfl
  | succ n ih => exact (State.reachesIn_succ (step_of_stopped hs)).mpr ih

theorem State.reachesIn_add (hst : s.ReachesIn n t) (htu : t.ReachesIn m u) : s.ReachesIn (n + m) u := by
  induction n generalizing s with
  | zero =>
    cases State.reachesIn_zero.mp hst
    rwa [Nat.zero_add]
  | succ n ih =>
    obtain ⟨v, hstep, hrest⟩ := State.exists_step_of_reachesIn_succ hst
    rw [Nat.succ_add, State.reachesIn_succ hstep]
    exact ih hrest

theorem State.Reaches.trans (hst : s.Reaches t) (htu : t.Reaches u) : s.Reaches u :=
  let ⟨_, hn⟩ := hst
  let ⟨_, hm⟩ := htu
  ⟨_, State.reachesIn_add hn hm⟩

theorem State.reaches_of_step (h : step s = .next t) : s.Reaches t :=
  ⟨1, (State.reachesIn_succ h).mpr (State.reachesIn_zero.mpr rfl)⟩

/-- What every step keeps, every run keeps. -/
theorem State.reachesIn_keeps_inv (hinv : s.Inv) (h : s.ReachesIn n t) : t.Inv := by
  induction n generalizing s with
  | zero => exact State.reachesIn_zero.mp h ▸ hinv
  | succ n ih =>
    obtain ⟨u, hstep, hrest⟩ := State.exists_step_of_reachesIn_succ h
    exact ih (step_keeps_inv hinv hstep) hrest

/-- A run that reaches a stopped engine stays there. -/
theorem State.eq_of_reachesIn_stopped (ht : t.run ≠ .running) (hst : s.ReachesIn n t) (hsu : s.ReachesIn m u)
    (hnm : n ≤ m) : u = t := by
  have hstay := State.reachesIn_add hst (State.reachesIn_of_stopped ht (m - n))
  rw [Nat.add_sub_cancel' hnm] at hstay
  exact State.reachesIn_unique hsu hstay

/-! ### `run_for` and `run_to_completion` -/

/-- Stopping at the first result that is not `Ok` leaves out only steps of a stopped engine. -/
theorem State.runFor_eq_iff : s.runFor n = .next (t, result) ↔
    s.ReachesIn n t ∧ result = if n = 0 then .ok else t.result := by
  induction n generalizing s with
  | zero =>
    rw [State.runFor_zero, Host.Outcome.next.injEq, Prod.mk.injEq, State.reachesIn_zero, if_pos rfl, eq_comm (b := result)]
  | succ n ih =>
    obtain ⟨u, hstep⟩ := exists_step s
    rw [State.runFor_succ hstep, State.reachesIn_succ hstep, if_neg (Nat.succ_ne_zero n)]
    by_cases hu : u.result = .ok
    · rw [if_pos hu, ih]
      refine and_congr_right fun hreach => ?_
      by_cases hn : n = 0
      · subst hn
        cases State.reachesIn_zero.mp hreach
        rw [if_pos rfl, hu]
      · rw [if_neg hn]
    · rw [if_neg hu, Host.Outcome.next.injEq, Prod.mk.injEq]
      have hstopped : u.run ≠ .running := fun h => hu (State.result_ok.mpr h)
      constructor
      · rintro ⟨rfl, rfl⟩
        exact ⟨State.reachesIn_of_stopped hstopped n, rfl⟩
      · rintro ⟨hreach, rfl⟩
        cases State.eq_of_reachesIn_of_stopped hstopped hreach
        exact ⟨rfl, rfl⟩

/-- `run_to_completion` answers a stopped state that the run reaches, with that state's result. -/
theorem State.runsToCompletion_iff : s.RunsToCompletion t result ↔
    s.Reaches t ∧ t.run ≠ .running ∧ result = t.result := by
  constructor
  · rintro ⟨n, hrun, hne⟩
    obtain ⟨hreach, hresult⟩ := State.runFor_eq_iff.mp hrun
    have hn : n ≠ 0 := fun h => hne (by rw [hresult, if_pos h])
    rw [if_neg hn] at hresult
    exact ⟨⟨n, hreach⟩, fun h => hne (hresult.trans (State.result_ok.mpr h)), hresult⟩
  · rintro ⟨⟨n, hreach⟩, hstopped, rfl⟩
    have hone := State.reachesIn_add hreach (State.reachesIn_of_stopped hstopped 1)
    have hrun := State.runFor_eq_iff.mpr ⟨hone, (if_neg (Nat.succ_ne_zero n)).symm⟩
    exact ⟨n + 1, hrun, fun h => hstopped (State.result_ok.mp h)⟩

/-- A run reaches one stopped state at most. -/
theorem State.stopped_unique (ht : t.run ≠ .running) (hu : u.run ≠ .running) (hst : s.Reaches t) (hsu : s.Reaches u) :
    t = u := by
  obtain ⟨n, hn⟩ := hst
  obtain ⟨m, hm⟩ := hsu
  obtain hle | hle := Nat.le_total n m
  · exact (State.eq_of_reachesIn_stopped ht hn hm hle).symm
  · exact State.eq_of_reachesIn_stopped hu hm hn hle

theorem State.halted_or_faulted_of_inv (hinv : s.Inv) (hs : s.run ≠ .running) :
    s.isHalted = true ∧ s.pc = 0x0000#16 ∨ s.IsFaulted := by
  cases hr : s.run with
  | running => exact absurd hr hs
  | halted => exact .inl ⟨decide_eq_true hr, hinv.halted hr⟩
  | faulted record => exact .inr ⟨record, hr⟩

/-! ### Runs without a fault -/

theorem step_not_faulted (hs : ¬ s.IsFaulted)
    (hin : s.run = .running → s.pc ≠ Config.haltSentinel → firstOutOfBounds (stepAccesses s) = none)
    (h : step s = .next t) : ¬ t.IsFaulted := by
  by_cases hrun : s.run = .running
  · by_cases hp : s.pc = Config.haltSentinel
    · rw [step_of_sentinel hrun hp] at h
      cases h
      exact fun ⟨_, hr⟩ => (nomatch hr)
    · obtain ⟨l, hl⟩ := step_of_accesses_inBounds hrun hp (hin hrun hp)
      rw [hl] at h
      cases h
      exact fun ⟨_, hr⟩ => by simp [hrun] at hr
  · rw [step_of_stopped hrun] at h
    cases h
    exact hs

/-- A run from a state that is not FAULTED, with no failing access on its way, does not end FAULTED. -/
theorem State.not_faulted_of_reachesIn (hs : ¬ s.IsFaulted)
    (hin : ∀ t, s.Reaches t → t.run = .running → t.pc ≠ Config.haltSentinel → firstOutOfBounds (stepAccesses t) = none)
    (h : s.ReachesIn n t) : ¬ t.IsFaulted := by
  induction n generalizing s with
  | zero => exact State.reachesIn_zero.mp h ▸ hs
  | succ n ih =>
    obtain ⟨u, hstep, hrest⟩ := State.exists_step_of_reachesIn_succ h
    have hu := step_not_faulted hs (hin s ⟨0, State.reachesIn_zero.mpr rfl⟩) hstep
    exact ih hu (fun v hv => hin v ((State.reaches_of_step hstep).trans hv)) hrest

end Sys2Proof.Machine

namespace Sys2Proof

open Sys2Proof.Machine Sys2Proof.Claims

/-- Settles O51: a stopped engine reaches only itself, and `run_for` reports the last step's result. -/
theorem faultedIsAbsorbing : Obligations.FaultedIsAbsorbing := by
  unfold Obligations.FaultedIsAbsorbing
  intro s record n hs
  have hstay := State.reachesIn_of_stopped (s := s) (by simp [hs])
  refine ⟨hstay n, State.runFor_eq_iff.mpr ⟨hstay (n + 1), ?_⟩⟩
  rw [if_neg (Nat.succ_ne_zero n), State.result, hs]

/-- Settles O55: by induction on the number of steps. -/
theorem runForIsIteratedStep : Obligations.RunForIsIteratedStep := by
  unfold Obligations.RunForIsIteratedStep
  exact fun n s t result => State.runFor_eq_iff

/-- Settles O56: both answers are stopped states that the run reaches, so the same one, and the invariant says what a stopped
state is. -/
theorem runToCompletionHasOneAnswer : Obligations.RunToCompletionHasOneAnswer := by
  unfold Obligations.RunToCompletionHasOneAnswer
  intro s t u result result' hinv ht hu
  obtain ⟨hreach, hstopped, rfl⟩ := State.runsToCompletion_iff.mp ht
  obtain ⟨hreach', hstopped', rfl⟩ := State.runsToCompletion_iff.mp hu
  cases State.stopped_unique hstopped hstopped' hreach hreach'
  obtain ⟨n, hn⟩ := hreach
  exact ⟨rfl, rfl, State.halted_or_faulted_of_inv (State.reachesIn_keeps_inv hinv hn) hstopped⟩

/-- Settles O57: a failing access makes the next state FAULTED, and without one no step of the run faults. -/
theorem safeRunsAreThoseWithoutAFailingAccess : Obligations.SafeRunsAreThoseWithoutAFailingAccess := by
  unfold Obligations.SafeRunsAreThoseWithoutAFailingAccess
  intro s hs
  constructor
  · intro hsafe t hreach hrun hp
    by_contra hne
    obtain ⟨⟨a, access⟩, hfirst⟩ := Option.ne_none_iff_exists'.mp hne
    have hstep := step_of_access_outOfBounds hrun hp hfirst
    exact hsafe _ (hreach.trans (State.reaches_of_step hstep)) ⟨_, rfl⟩
  · rintro hin t ⟨n, hn⟩
    exact State.not_faulted_of_reachesIn hs hin hn

end Sys2Proof
end

section
/-! PROOFS. The tables of the spec over every instruction: the register written (10_state.md R22), the hidden state (10_state.md
section 6), the next PC (40_fetch_and_cycle.md R95) and the Word stored (20_memory.md section 3). -/

namespace Sys2Proof.Machine

open Sys2Proof.Claims

variable {s t : State} {i : Instr} {l : Latch} {r : Reg} {a v : Word} {off : Int}

/-! ### What an executor builds when it does not raise -/

theorem State.storeTo_ok_write (h : s.storeTo r a = .ok l) : l.write = some (a, s.reg r) := by
  rw [State.storeTo_eq] at h
  split at h
  · exact Except.ok.inj h ▸ rfl
  · cases h

theorem State.storeIndirect_ok_write (h : s.storeIndirect r off = .ok l) :
    l.write = some (s.mem.readWord (s.pcRelative off), s.reg r) := by
  rw [State.storeIndirect_eq] at h
  split at h
  · exact State.storeTo_ok_write h
  · cases h

/-- The table of 40_fetch_and_cycle.md R95 over instructions. -/
def pcAfter : Instr → State → Word
  | .br n z p off, s => if branchTaken n z p s.current.cc then s.pcRelative off else s.pcInc
  | .jsr off, s => s.pcRelative off
  | .jsrr baseR, s => s.reg baseR
  | .jmp baseR, s => s.reg baseR
  | .trap vector, s => if vector = Config.haltVector then Config.haltSentinel else s.pcInc
  | _, s => s.pcInc

/-- The PC in NEXT, the pending write, and the registers that NEXT keeps, for every instruction. -/
theorem effect_ok_frame (h : effect i s = .ok l) :
    l.next.pc = pcAfter i s ∧ l.write = (storeOf i s).map (fun (a, r) => (a, s.reg r)) ∧
    ∀ r, registerWritten i ≠ some r → l.next.reg r = s.reg r := by
  cases i with
  | addReg | addImm | andReg | andImm | not | ld | ldr | ldi =>
    obtain ⟨dr, v, hdr, rfl⟩ := effect_ok_of_callsSetcc rfl h
    exact ⟨rfl, rfl, fun r hr => Latch.writeResult_reg_other fun e => hr (e ▸ hdr)⟩
  | jsr | jsrr | jmp | lea =>
    cases Except.ok.inj h
    exact ⟨rfl, rfl, fun r hr => Latch.setReg_reg_other fun e => hr (e ▸ rfl)⟩
  | rti | reserved13 =>
    cases Except.ok.inj h
    exact ⟨rfl, rfl, fun _ _ => rfl⟩
  | br | trap =>
    cases Except.ok.inj h
    simp only [pcAfter]
    split <;> exact ⟨rfl, rfl, fun _ _ => rfl⟩
  | st | str =>
    have hnext := State.storeTo_ok h
    exact ⟨hnext ▸ rfl, State.storeTo_ok_write h, fun r _ => hnext ▸ State.latch_reg s r⟩
  | sti =>
    have hnext := State.storeIndirect_ok h
    exact ⟨hnext ▸ rfl, State.storeIndirect_ok_write h, fun r _ => hnext ▸ State.latch_reg s r⟩

/-! ### Registers and the hidden state -/

theorem exec_reg_of_not_written (h : exec i s = .next t) (hr : registerWritten i ≠ some r) : t.reg r = s.reg r := by
  obtain ⟨l, hl, rfl⟩ | ⟨raised, -, rfl⟩ := exec_cases h
  · obtain ⟨-, -, hregs⟩ := effect_ok_frame hl
    exact hregs r hr
  · rfl

/-- No executor reads the run state, its record or the counter. -/
theorem effect_of_hidden (i : Instr) (s : State) (run : RunState) (cycles : Nat) :
    effect i { s with run := run, cycles := cycles } = effect i s := by
  cases i <;> rfl

/-! ### The next PC -/

theorem exec_pc_of_committed (h : exec i s = .next t) (ht : t.run = .running) : t.pc = pcAfter i s := by
  obtain ⟨l, hl, rfl⟩ | ⟨raised, -, rfl⟩ := exec_cases h
  · obtain ⟨hpc, -, -⟩ := effect_ok_frame hl
    exact hpc
  · cases ht

theorem exec_pc_of_faulted (hs : s.run = .running) (h : exec i s = .next t) (ht : t.run ≠ .running) : t.pc = s.pc := by
  obtain ⟨l, -, rfl⟩ | ⟨raised, -, rfl⟩ := exec_cases h
  · exact absurd hs ht
  · rfl

/-! ### The Word stored -/

theorem Memory.readByte_writeWord_other {m : Memory} {k : Nat} (hlow : k ≠ 2 * a.toNat) (hhigh : k ≠ 2 * a.toNat + 1) :
    (m.writeWord a v).readByte k = m.readByte k := by
  rw [Memory.readByte_writeWord, lowCell, if_neg hhigh, if_neg hlow]

theorem exec_sameBytesBut (h : exec i s = .next t) (hstore : storeOf i s = some (a, r)) : SameBytesBut a s t := by
  intro k hlow hhigh
  obtain ⟨l, hl, rfl⟩ | ⟨raised, -, rfl⟩ := exec_cases h
  · obtain ⟨-, hwrite, -⟩ := effect_ok_frame hl
    rw [State.commit_mem, hwrite, hstore]
    exact Memory.readByte_writeWord_other hlow hhigh
  · rfl

theorem exec_sameBytes (h : exec i s = .next t) (hstore : storeOf i s = none) : SameBytes s t := by
  intro k
  obtain ⟨l, hl, rfl⟩ | ⟨raised, -, rfl⟩ := exec_cases h
  · obtain ⟨-, hwrite, -⟩ := effect_ok_frame hl
    rw [State.commit_mem, hwrite, hstore]
    rfl
  · rfl

/-- A store that commits is inside the array, and leaves memory with the register's Word at its address. -/
theorem exec_committed_store (h : exec i s = .next t) (ht : t.run = .running) (hstore : storeOf i s = some (a, r)) :
    InBounds a ∧ t.mem = s.mem.writeWord a (s.reg r) := by
  obtain ⟨l, hl, rfl⟩ | ⟨raised, -, rfl⟩ := exec_cases h
  · obtain ⟨-, hwrite, -⟩ := effect_ok_frame hl
    rw [hstore] at hwrite
    refine ⟨?_, by rw [State.commit_mem, hwrite]; rfl⟩
    obtain hnone | ⟨b, v, hsome, hb⟩ := effect_write hl
    · cases hwrite.symm.trans hnone
    · cases hwrite.symm.trans hsome
      exact hb
  · cases ht

end Sys2Proof.Machine

namespace Sys2Proof

open Sys2Proof.Machine Sys2Proof.Claims

/-- The table over the bits of a Word is the table over the instruction that it holds. -/
theorem Layout.nextPc_eq {ir : Word} {i : Instr} {s : State} (h : Layout ir i) : nextPc ir s = pcAfter i s := by
  cases h with
  | br hop =>
    simp only [nextPc, hop, if_true, pcAfter, State.pcRelative_toInt]
    rfl
  | jsr hop hmode | jsrr hop hmode =>
    simp only [nextPc, hop, hmode, pcAfter, State.pcRelative_toInt]
    rfl
  | jmp hop => simp [nextPc, hop, pcAfter]
  | trap hop =>
    have hvector : vector8Of ir = 0x25#8 ↔ (vector8Of ir).toNat = Config.haltVector := BitVec.toNat_inj.symm
    simp [nextPc, hop, pcAfter, hvector, State.pcInc]
  | addReg hop | addImm hop | ld hop | st hop | andReg hop | andImm hop | ldr hop | str hop | rti hop | not hop | ldi hop
  | sti hop | reserved13 hop | lea hop => simp [nextPc, hop, pcAfter, State.pcInc]

/-- Settles O37: by what each executor builds. -/
theorem onlyTheTableRegisterIsWritten : Obligations.OnlyTheTableRegisterIsWritten := by
  unfold Obligations.OnlyTheTableRegisterIsWritten
  exact fun i s t h r hr => exec_reg_of_not_written h hr

/-- Settles O39: the executor builds or raises the same from both states. -/
theorem hiddenStateIsNotRead : Obligations.HiddenStateIsNotRead := by
  unfold Obligations.HiddenStateIsNotRead
  intro i s t run cycles h
  rw [exec_eq_finish, effect_of_hidden]
  obtain ⟨l, hl, rfl⟩ | ⟨raised, hl, rfl⟩ := exec_cases h <;> rw [hl]
  · exact ⟨_, State.finish_ok, rfl, rfl⟩
  · exact ⟨_, State.finish_error, rfl, rfl⟩

/-- Settles O40: the PC that the executor builds is the table's, and a fault discards it. -/
theorem nextPcFollowsTheTable : Obligations.NextPcFollowsTheTable := by
  unfold Obligations.NextPcFollowsTheTable
  intro ir s t hs h
  refine ⟨fun ht => ?committed, fun ht => exec_pc_of_faulted hs h ht⟩
  case committed => rw [exec_pc_of_committed h ht, (layout_decode ir).nextPc_eq]

/-- Settles O41: the pending write is the one of the table of stores. -/
theorem everyInstructionStoresAtMostOneWord : Obligations.EveryInstructionStoresAtMostOneWord := by
  unfold Obligations.EveryInstructionStoresAtMostOneWord
  exact fun i s t h => ⟨fun a r hstore => exec_sameBytesBut h hstore, fun hstore => exec_sameBytes h hstore⟩

/-- Settles O42: the store is inside the array, so the next step fetches the Word that it left. -/
theorem storedWordIsFetchedNext : Obligations.StoredWordIsFetchedNext := by
  unfold Obligations.StoredWordIsFetchedNext
  intro s t a r hs hstore hstep ht hpc ha
  rw [step_of_executes hs] at hstep
  obtain ⟨hb, hmem⟩ := exec_committed_store hstep ht hstore
  rw [step_of_executes ⟨ht, hpc ▸ ha, hpc ▸ hb⟩, hpc, hmem, Memory.readWord_writeWord_same]

end Sys2Proof
end

section
/-! PROOFS. The registers read (10_state.md R22): from two states that agree on the registers of the read column an executor builds
the same, up to the registers that it only carries along. -/

namespace Sys2Proof.Machine

open Sys2Proof.Claims

variable {s u t : State} {dr r : Reg} {a v : Word} {off : Int} {written : Option Reg}
  {e e' : Except Raise Latch}

/-- The two states have the same PC, flags and memory; their registers may differ. -/
structure SameButRegs (s u : State) : Prop where
  pc : u.pc = s.pc
  cc : u.current.cc = s.current.cc
  mem : u.mem = s.mem

/-- Two NEXT snapshots with the same PC, flags and pending write, and the same value in the register written, if any. -/
structure Latch.Agrees (written : Option Reg) (l l' : Latch) : Prop where
  pc : l'.next.pc = l.next.pc
  cc : l'.next.cc = l.next.cc
  write : l'.write = l.write
  reg : ∀ r, written = some r → l'.next.reg r = l.next.reg r

/-- Two executors raise the same, or build NEXT snapshots that agree. -/
inductive SameEffect (written : Option Reg) : Except Raise Latch → Except Raise Latch → Prop
  | ok {l l' : Latch} (h : l.Agrees written l') : SameEffect written (.ok l) (.ok l')
  | error (raised : Raise) : SameEffect written (.error raised) (.error raised)

/-! ### The addresses -/

theorem SameButRegs.pcInc (h : SameButRegs s u) : u.pcInc = s.pcInc := by rw [State.pcInc, State.pcInc, h.pc]

theorem SameButRegs.pcRelative (h : SameButRegs s u) : u.pcRelative off = s.pcRelative off := by
  rw [State.pcRelative, State.pcRelative, h.pcInc]

theorem State.baseOffset_congr (h : u.reg r = s.reg r) : u.baseOffset r off = s.baseOffset r off := by
  rw [State.baseOffset, State.baseOffset, h]

/-! ### The shared operations -/

theorem SameButRegs.latch (h : SameButRegs s u) : SameEffect none (.ok s.latch) (.ok u.latch) :=
  .ok ⟨h.pcInc, h.cc, rfl, fun _ hr => nomatch hr⟩

theorem SameButRegs.latch_setPc (h : SameButRegs s u) (target : Word) :
    SameEffect none (.ok (s.latch.setPc target)) (.ok (u.latch.setPc target)) :=
  .ok ⟨rfl, h.cc, rfl, fun _ hr => nomatch hr⟩

theorem SameButRegs.operate (h : SameButRegs s u) : SameEffect (some dr) (s.operate dr v) (u.operate dr v) :=
  .ok ⟨h.pcInc, rfl, rfl, fun r hr => by cases hr; simp⟩

theorem SameButRegs.lea (h : SameButRegs s u) :
    SameEffect (some dr) (.ok (s.latch.setReg dr v)) (.ok (u.latch.setReg dr v)) :=
  .ok ⟨h.pcInc, h.cc, rfl, fun r hr => by cases hr; simp⟩

theorem SameButRegs.linkAndJump (h : SameButRegs s u) : SameEffect (some 7) (s.linkAndJump a) (u.linkAndJump a) :=
  .ok ⟨rfl, h.cc, rfl, fun r hr => by cases hr; simp [h.pcInc]⟩

theorem SameButRegs.loadFrom (h : SameButRegs s u) : SameEffect (some dr) (s.loadFrom dr a) (u.loadFrom dr a) := by
  rw [State.loadFrom_eq, State.loadFrom_eq, h.mem]
  split
  · exact h.operate
  · exact .error _

theorem SameButRegs.storeTo (h : SameButRegs s u) (hr : u.reg r = s.reg r) :
    SameEffect none (s.storeTo r a) (u.storeTo r a) := by
  rw [State.storeTo_eq, State.storeTo_eq, hr]
  split
  · exact .ok ⟨h.pcInc, h.cc, rfl, fun _ hr => nomatch hr⟩
  · exact .error _

theorem SameButRegs.loadIndirect (h : SameButRegs s u) :
    SameEffect (some dr) (s.loadIndirect dr off) (u.loadIndirect dr off) := by
  rw [State.loadIndirect_eq, State.loadIndirect_eq, h.pcRelative, h.mem]
  split
  · exact h.loadFrom
  · exact .error _

theorem SameButRegs.storeIndirect (h : SameButRegs s u) (hr : u.reg r = s.reg r) :
    SameEffect none (s.storeIndirect r off) (u.storeIndirect r off) := by
  rw [State.storeIndirect_eq, State.storeIndirect_eq, h.pcRelative, h.mem]
  split
  · exact h.storeTo hr
  · exact .error _

/-! ### Every instruction -/

theorem SameButRegs.effect (h : SameButRegs s u) {i : Instr} (hread : ∀ r ∈ registersRead i, u.reg r = s.reg r) :
    SameEffect (registerWritten i) (effect i s) (effect i u) := by
  cases i with
  | br =>
    simp only [Machine.effect, h.cc, h.pcRelative]
    split
    · exact h.latch_setPc _
    · exact h.latch
  | trap =>
    simp only [Machine.effect]
    split
    · exact h.latch_setPc _
    · exact h.latch
  | rti | reserved13 => exact h.latch
  | addReg dr sr1 sr2 | andReg dr sr1 sr2 =>
    simp only [Machine.effect, hread sr1 (by simp [registersRead]), hread sr2 (by simp [registersRead])]
    exact h.operate
  | addImm dr sr | andImm dr sr | not dr sr =>
    simp only [Machine.effect, hread sr (by simp [registersRead])]
    exact h.operate
  | ld =>
    simp only [Machine.effect, h.pcRelative]
    exact h.loadFrom
  | ldr dr baseR =>
    simp only [Machine.effect, State.baseOffset_congr (hread baseR (by simp [registersRead]))]
    exact h.loadFrom
  | ldi => exact h.loadIndirect
  | st sr =>
    simp only [Machine.effect, h.pcRelative]
    exact h.storeTo (hread sr (by simp [registersRead]))
  | str sr baseR =>
    simp only [Machine.effect, State.baseOffset_congr (hread baseR (by simp [registersRead]))]
    exact h.storeTo (hread sr (by simp [registersRead]))
  | sti sr => exact h.storeIndirect (hread sr (by simp [registersRead]))
  | jsr =>
    simp only [Machine.effect, h.pcRelative]
    exact h.linkAndJump
  | jsrr baseR | jmp baseR =>
    simp only [Machine.effect, hread baseR (by simp [registersRead])]
    exact h.linkAndJump
  | lea =>
    simp only [Machine.effect, h.pcRelative]
    exact h.lea

/-- The commit of snapshots that agree, or the same fault taken, leaves states that agree. -/
theorem SameEffect.finish (heffect : SameEffect written e e') (hsame : SameButRegs s u) (hs : s.run = .running)
    (hu : u.run = .running) (h : s.finish e = .next t) :
    ∃ t', u.finish e' = .next t' ∧ t'.pc = t.pc ∧ t'.current.cc = t.current.cc ∧
      t'.mem = t.mem ∧ t'.run = t.run ∧ (t.run = .running → ∀ r, written = some r → t'.reg r = t.reg r) := by
  cases heffect with
  | ok hagrees =>
    cases h
    refine ⟨_, State.finish_ok, hagrees.pc, hagrees.cc, ?mem, hu.trans hs.symm, fun _ => hagrees.reg⟩
    case mem => rw [State.commit_mem, State.commit_mem, hsame.mem, hagrees.write]
  | error raised =>
    cases h
    refine ⟨_, State.finish_error, hsame.pc, hsame.cc, hsame.mem, ?run, fun ht => nomatch ht⟩
    case run => rw [State.takeFault_run, State.takeFault_run, hsame.pc]

end Sys2Proof.Machine

namespace Sys2Proof

open Sys2Proof.Machine Sys2Proof.Claims

/-- Settles O38: the two executors raise the same or build snapshots that agree, and so do the states they leave. -/
theorem onlyTheTableRegistersAreRead : Obligations.OnlyTheTableRegistersAreRead := by
  unfold Obligations.OnlyTheTableRegistersAreRead
  intro i s u t hs hu hpc hcc hmem hread h
  have hsame : SameButRegs s u := ⟨hpc, hcc, hmem⟩
  rw [exec_eq_finish] at h ⊢
  exact (hsame.effect hread).finish hsame hs hu h

end Sys2Proof
end

section
/-! PROOFS. Launch and the host's memory commands (70_reset_and_hazards.md R165, 20_memory.md R60 to R63): the canonical form of
memory, the words of an image in it, and the refused addresses. -/

namespace Sys2Proof.Machine

variable {m m' : Memory} {s : State} {a v : Word} {address i : Nat} {words : List Word} {cell : Host.Cell}

/-! ### The canonical form -/

theorem Memory.readByte_of_mem (hm : m.Pairwise fun c d => c.1 < d.1) (h : cell ∈ m) : m.readByte cell.1 = cell.2 := by
  induction m with
  | nil => cases h
  | cons head rest ih =>
    obtain ⟨hhead, hrest⟩ := List.pairwise_cons.mp hm
    rw [Memory.readByte]
    obtain rfl | hmem := List.mem_cons.mp h
    · rw [if_pos rfl]
    · rw [if_neg (hhead cell hmem).ne, ih hrest hmem]

theorem Memory.mem_of_readByte {k : Nat} (h : m.readByte k ≠ Config.unlistedByte) : (k, m.readByte k) ∈ m := by
  induction m with
  | nil => exact absurd rfl h
  | cons head rest ih =>
    rw [Memory.readByte] at h ⊢
    split at h
    next hk => rw [if_pos hk, ← hk]; exact List.mem_cons_self
    next hk => rw [if_neg hk]; exact List.mem_cons_of_mem _ (ih h)

/-- In canonical form a memory lists exactly the cells that do not read as the unlisted byte. -/
theorem Memory.mem_iff_readByte (h : m.wf) : cell ∈ m ↔ m.readByte cell.1 = cell.2 ∧ cell.2 ≠ Config.unlistedByte := by
  constructor
  · exact fun hmem => ⟨Memory.readByte_of_mem h.1 hmem, (h.2 cell hmem).2⟩
  · rintro ⟨hread, hne⟩
    have hmem := Memory.mem_of_readByte (hread.symm ▸ hne)
    rwa [hread] at hmem

theorem Memory.eq_of_readByte (h : m.wf) (h' : m'.wf) (hread : ∀ k, m.readByte k = m'.readByte k) : m = m' := by
  have : Std.Antisymm fun c d : Host.Cell => c.1 < d.1 := ⟨fun _ _ hcd hdc => absurd hcd hdc.asymm⟩
  have : Std.Irrefl fun c d : Host.Cell => c.1 < d.1 := ⟨fun _ => lt_irrefl _⟩
  refine h.1.eq_of_mem_iff h'.1 fun cell => ?_
  rw [Memory.mem_iff_readByte h, Memory.mem_iff_readByte h', hread]

/-- Past the array every byte is unlisted. -/
theorem Memory.readByte_of_outside {k : Nat} (h : m.wf) (hk : 2 * Config.memWords ≤ k) :
    m.readByte k = Config.unlistedByte :=
  Memory.readByte_of_absent fun cell hmem => (lt_of_lt_of_le (h.2 cell hmem).1 hk).ne

theorem Memory.readByte_eq_of_readWord_eq (hword : ∀ a : Word, a.toNat < 32768 → m.readWord a = m'.readWord a) {k : Nat}
    (hk : k < 2 * Config.memWords) : m.readByte k = m'.readByte k := by
  have hk' : k < 65536 := hk
  have ha : (BitVec.ofNat 16 (k / 2)).toNat = k / 2 := by
    rw [BitVec.toNat_ofNat]
    omega
  have hlow := Memory.readByte_of_readWord (m := m) (a := BitVec.ofNat 16 (k / 2))
  have hlow' := Memory.readByte_of_readWord (m := m') (a := BitVec.ofNat 16 (k / 2))
  rw [hword _ (by omega), lowCell, ha] at hlow
  rw [lowCell, ha] at hlow'
  obtain hpar | hpar := Nat.mod_two_eq_zero_or_one k
  · rw [show k = 2 * (k / 2) by omega, hlow.1, hlow'.1]
  · rw [show k = 2 * (k / 2) + 1 by omega, hlow.2, hlow'.2]

/-! ### The words of an image -/

/-- Memory with the words of an image stored from an address on. -/
def Memory.storeWords (m : Memory) (address : Nat) : List Word → Memory
  | [] => m
  | word :: rest => (m.writeWord (BitVec.ofNat 16 address) word).storeWords (address + 1) rest

theorem State.loadWords_ok (h : address + words.length ≤ 32768) :
    s.loadWords address words = .ok { s with mem := s.mem.storeWords address words } := by
  induction words generalizing s address with
  | nil => rfl
  | cons word rest ih =>
    rw [List.length_cons] at h
    rw [State.loadWords, State.load, State.setMemory_ok (by omega)]
    exact ih (by omega)

theorem State.setMemory_refused (h : 32768 ≤ address) :
    s.setMemory address v = .error (.addressOutOfRange address) := by
  simp only [State.setMemory, hostAddress, if_neg (Nat.not_lt.mpr h)]

theorem State.getMemory_refused (h : 32768 ≤ address) : s.getMemory address = .error (.addressOutOfRange address) := by
  simp only [State.getMemory, hostAddress, if_neg (Nat.not_lt.mpr h)]

/-- An image that leaves the array is refused at the first address past it. -/
theorem State.loadWords_refused (hne : words ≠ []) (h : 32768 < address + words.length) :
    ∃ reason, s.loadWords address words = .error reason := by
  induction words generalizing s address with
  | nil => exact absurd rfl hne
  | cons word rest ih =>
    rw [List.length_cons] at h
    rw [State.loadWords, State.load]
    by_cases ha : address < 32768
    · rw [State.setMemory_ok ha]
      exact ih (by rintro rfl; simp at h; omega) (by omega)
    · rw [State.setMemory_refused (Nat.not_lt.mp ha)]
      exact ⟨_, rfl⟩

theorem Memory.wf_storeWords (hm : m.wf) (h : address + words.length ≤ 32768) : (m.storeWords address words).wf := by
  induction words generalizing m address with
  | nil => exact hm
  | cons word rest ih =>
    rw [List.length_cons] at h
    refine ih (Memory.wf_writeWord hm ?_) (by omega)
    show (BitVec.ofNat 16 address).toNat < 32768
    rw [BitVec.toNat_ofNat]
    omega

theorem Memory.readWord_storeWords_outside (h : address + words.length ≤ 32768)
    (ha : a.toNat < address ∨ address + words.length ≤ a.toNat) :
    (m.storeWords address words).readWord a = m.readWord a := by
  induction words generalizing m address with
  | nil => rfl
  | cons word rest ih =>
    rw [List.length_cons] at h ha
    have hne : a ≠ BitVec.ofNat 16 address := by
      rintro rfl
      rw [BitVec.toNat_ofNat] at ha
      omega
    rw [Memory.storeWords, ih (by omega) (by omega), Memory.readWord_writeWord_other hne]

theorem Memory.readWord_storeWords_inside (h : address + words.length ≤ 32768) (hi : i < words.length) :
    (m.storeWords address words).readWord (BitVec.ofNat 16 (address + i)) = words[i] := by
  induction words generalizing m address i with
  | nil => cases hi
  | cons word rest ih =>
    rw [List.length_cons] at h hi
    cases i with
    | zero =>
      have ha : (BitVec.ofNat 16 address).toNat < address + 1 := by
        rw [BitVec.toNat_ofNat]
        omega
      exact (Memory.readWord_storeWords_outside (by omega) (.inl ha)).trans Memory.readWord_writeWord_same
    | succ i =>
      have hrest := ih (m := m.writeWord (BitVec.ofNat 16 address) word) (address := address + 1) (by omega)
        (Nat.lt_of_succ_lt_succ hi)
      rwa [Nat.add_right_comm] at hrest

/-- Zero-filled memory (70_reset_and_hazards.md R165). -/
theorem Memory.readWord_empty (a : Word) : Memory.readWord [] a = 0x0000#16 := by
  rw [Memory.readWord, Memory.readByte, Memory.readByte]
  decide

theorem launchImages_one (regInit : Vector Word 8) (A : Word) (words : List Word) :
    launchImages regInit ⟨A, words⟩ [] = (State.launch regInit A []).loadWords A.toNat words := by
  rw [launchImages, State.loadImages]
  cases (State.launch regInit A []).loadWords A.toNat words <;> rfl

end Sys2Proof.Machine

namespace Sys2Proof

open Sys2Proof.Machine

/-- Settles O1: the launch state is written out by its definition. -/
theorem launchHoldsTheStatedValues : Obligations.LaunchHoldsTheStatedValues := by
  unfold Obligations.LaunchHoldsTheStatedValues
  intro regInit entryPC memInit s
  exact ⟨fun _ => rfl, rfl, rfl, rfl, rfl, rfl, rfl, rfl, rfl, rfl⟩

/-- Settles O5: no Word is an address of 32768 or more for the host. -/
theorem hostAddressesOutOfRangeAreRefused : Obligations.HostAddressesOutOfRangeAreRefused := by
  unfold Obligations.HostAddressesOutOfRangeAreRefused
  exact fun s address word h => ⟨State.getMemory_refused h, State.setMemory_refused h, State.setMemory_refused h⟩

/-- Settles O6: a canonical memory is determined by its bytes, and these are the halves of its Words. -/
theorem equalReadsMeanEqualMemories : Obligations.EqualReadsMeanEqualMemories := by
  unfold Obligations.EqualReadsMeanEqualMemories
  intro m m' h h' hword
  refine Memory.eq_of_readByte h h' fun k => ?_
  by_cases hk : k < 2 * Config.memWords
  · exact Memory.readByte_eq_of_readWord_eq hword hk
  · rw [Memory.readByte_of_outside h (Nat.not_lt.mp hk), Memory.readByte_of_outside h' (Nat.not_lt.mp hk)]

/-- Settles O3: the loads of the image store its words one after the other, each at an address of its own. -/
theorem launchPlacesTheImage : Obligations.LaunchPlacesTheImage := by
  unfold Obligations.LaunchPlacesTheImage
  intro regInit A words
  rw [launchImages_one]
  refine ⟨fun h => ⟨_, State.loadWords_ok h, Memory.wf_storeWords Memory.wf_empty h, ?placed, fun a ha => ?zeros, rfl,
    fun _ => rfl, rfl, rfl, rfl⟩, State.loadWords_refused⟩
  case placed =>
    intro i hi
    have hA : A + BitVec.ofNat 16 i = BitVec.ofNat 16 (A.toNat + i) := by
      rw [BitVec.ofNat_add, BitVec.ofNat_toNat, BitVec.setWidth_eq]
    rw [hA]
    exact Memory.readWord_storeWords_inside h hi
  case zeros =>
    exact (Memory.readWord_storeWords_outside h ha).trans (Memory.readWord_empty a)

end Sys2Proof
end

section
/-! PROOFS. The operate family (41_operate.md): the register forms and NOT, and the laws of section 5. -/

namespace Sys2Proof

open Sys2Proof.Machine Sys2Proof.Claims

/-- Settles O14: the Word is laid out as the register form, whose effect is the sum of its sources. -/
theorem addRegisterResult : Obligations.AddRegisterResult := by
  unfold Obligations.AddRegisterResult
  intro ir s hop hmode
  exact ⟨(Layout.addReg hop hmode).decode_eq, exec_writesResult_of_operate rfl⟩

/-- Settles O16: the Word is laid out as the register form, whose effect is the bitwise and of its sources. -/
theorem andRegisterResult : Obligations.AndRegisterResult := by
  unfold Obligations.AndRegisterResult
  intro ir s hop hmode
  exact ⟨(Layout.andReg hop hmode).decode_eq, exec_writesResult_of_operate rfl⟩

/-- NOT leaves the complement of its source. -/
theorem exec_not_writesResult (dr sr : Reg) (s : State) :
    ∃ t, exec (.not dr sr) s = .next t ∧ WritesResult dr (~~~ s.reg sr) s t :=
  exec_writesResult_of_operate rfl

/-- Settles O18: the Word is laid out as NOT, whose effect is the complement, and that is 0xFFFF less the source. -/
theorem notResult : Obligations.NotResult := by
  unfold Obligations.NotResult
  intro ir s hop
  refine ⟨(Layout.not hop).decode_eq, ?_⟩
  rw [show 0xFFFF#16 = BitVec.allOnes 16 from rfl, BitVec.allOnes_sub_eq_not]
  exact exec_not_writesResult _ _ s

/-- Settles O19: the two forms have the same effect when the second operands are equal. -/
theorem registerAndImmediateFormsAgree : Obligations.RegisterAndImmediateFormsAgree := by
  unfold Obligations.RegisterAndImmediateFormsAgree
  intro d a b i s hb
  have himm : immediate i.toInt = s.reg b := (immediate_toInt i).trans hb.symm
  constructor <;> rw [exec_eq_finish, exec_eq_finish, effect, effect, himm]

/-- Settles O20: the complement plus one is the negation, and the frames of the two instructions chain. -/
theorem notThenAddOneNegates : Obligations.NotThenAddOneNegates := by
  unfold Obligations.NotThenAddOneNegates
  intro d a s
  obtain ⟨t, ht, hresult, -, -, hregs, hbytes, -⟩ := exec_not_writesResult d a s
  obtain ⟨u, hu, hresult', hflags, -, hregs', hbytes', -⟩ :
      ∃ u, exec (.addImm d d 1) t = .next u ∧ WritesResult d (t.reg d + immediate 1) t u := exec_writesResult_of_operate rfl
  have hneg : t.reg d + immediate 1 = 0x0000#16 - s.reg a := by
    rw [hresult, BitVec.zero_sub, BitVec.neg_eq_not_add]
    rfl
  rw [hneg] at hresult' hflags
  exact ⟨t, u, ht, hu, hresult', hflags, fun r hr => (hregs' r hr).trans (hregs r hr),
    fun k => (hbytes' k).trans (hbytes k)⟩

end Sys2Proof
end

section
/-! PROOFS. The data movement family (42_data_movement.md): what the loads and the stores leave, directly and through a pointer,
and the faults of their accesses. -/

namespace Sys2Proof.Machine

open Sys2Proof.Claims

variable {s : State} {i : Instr} {dr sr b : Reg} {ea v : Word} {off : Int}

/-! ### Addresses -/

theorem State.baseOffset_toInt {n : Nat} (s : State) (b : Reg) (f : BitVec n) :
    s.baseOffset b f.toInt = s.reg b + sext16 f := by
  rw [State.baseOffset, immediate_toInt]

/-! ### The outcome of an access -/

/-- The commit of a store: the frame that the stores share. -/
theorem storesWord_commit : StoresWord ea v s (s.commit { s.latch with write := some (ea, v) }) := by
  refine ⟨?stored, fun k hlow hhigh => ?others, rfl, fun _ => rfl, sameFlags_of_cc_eq rfl, rfl, rfl⟩
  case stored => exact Memory.readWord_writeWord_same
  case others => exact Memory.readByte_writeWord_other hlow hhigh

theorem exec_writesResult_of_loadFrom (h : effect i s = s.loadFrom dr ea) (hea : ea.toNat < 32768) :
    ∃ t, exec i s = .next t ∧ WritesResult dr (s.mem.readWord ea) s t := by
  refine ⟨_, ?_, writesResult_commit⟩
  rw [exec_eq_finish, h, State.loadFrom_eq, if_pos hea, State.finish_ok]

theorem exec_storesWord_of_storeTo (h : effect i s = s.storeTo sr ea) (hea : ea.toNat < 32768) :
    ∃ t, exec i s = .next t ∧ StoresWord ea (s.reg sr) s t := by
  refine ⟨_, ?_, storesWord_commit⟩
  rw [exec_eq_finish, h, State.storeTo_eq, if_pos hea, State.finish_ok]

/-- An instruction whose first access out of bounds is known takes the fault of that access. -/
theorem exec_faultedAt {k : Access} (h : firstOutOfBounds (dataAccesses i s) = some (ea, k)) :
    exec i s = .next (faultedAt s ea k) := by
  rw [exec_eq_finish, (effect_decidedBy i s).1 ea k h]
  rfl

/-- Through a pointer inside the array the instruction loads as LD does from the pointer. -/
theorem effect_ldi (h : (s.pcRelative off).toNat < 32768) :
    effect (.ldi dr off) s = s.loadFrom dr (s.mem.readWord (s.pcRelative off)) := by
  rw [effect, State.loadIndirect_eq, if_pos h]

theorem effect_sti (h : (s.pcRelative off).toNat < 32768) :
    effect (.sti sr off) s = s.storeTo sr (s.mem.readWord (s.pcRelative off)) := by
  rw [effect, State.storeIndirect_eq, if_pos h]

end Sys2Proof.Machine

namespace Sys2Proof

open Sys2Proof.Machine Sys2Proof.Claims

/-- Settles O21: LD's one access is the read at the PC-relative address. -/
theorem ldResult : Obligations.LdResult := by
  unfold Obligations.LdResult
  rintro ir s _ hop rfl
  rw [← State.pcRelative_toInt]
  exact ⟨(Layout.ld hop).decode_eq, exec_writesResult_of_loadFrom rfl,
    fun hout => exec_faultedAt (firstOutOfBounds_cons_outOfBounds (Nat.not_lt.mpr hout))⟩

/-- Settles O22: LDR's one access is the read at the base plus offset. -/
theorem ldrResult : Obligations.LdrResult := by
  unfold Obligations.LdrResult
  rintro ir s _ hop rfl
  rw [← State.baseOffset_toInt]
  exact ⟨(Layout.ldr hop).decode_eq, exec_writesResult_of_loadFrom rfl,
    fun hout => exec_faultedAt (firstOutOfBounds_cons_outOfBounds (Nat.not_lt.mpr hout))⟩

/-- Settles O23: LDI's accesses are the read of the pointer and the read through it, in that order. -/
theorem ldiResult : Obligations.LdiResult := by
  unfold Obligations.LdiResult
  rintro ir s _ _ hop rfl rfl
  rw [← State.pcRelative_toInt]
  refine ⟨(Layout.ldi hop).decode_eq, fun hin => exec_writesResult_of_loadFrom (effect_ldi hin), fun hin hout => ?through,
    fun hout => exec_faultedAt (firstOutOfBounds_cons_outOfBounds (Nat.not_lt.mpr hout))⟩
  case through =>
    exact exec_faultedAt ((firstOutOfBounds_cons_inBounds hin).trans
      (firstOutOfBounds_cons_outOfBounds (Nat.not_lt.mpr hout)))

/-- Settles O24: ST's one access is the write at the PC-relative address. -/
theorem stResult : Obligations.StResult := by
  unfold Obligations.StResult
  rintro ir s _ hop rfl
  exact ⟨(Layout.st hop).decode_eq, State.pcRelative_toInt s _, exec_storesWord_of_storeTo rfl,
    fun hout => exec_faultedAt (firstOutOfBounds_cons_outOfBounds (Nat.not_lt.mpr hout))⟩

/-- Settles O25: STR's one access is the write at the base plus offset. -/
theorem strResult : Obligations.StrResult := by
  unfold Obligations.StrResult
  rintro ir s _ hop rfl
  exact ⟨(Layout.str hop).decode_eq, State.baseOffset_toInt s _ _, exec_storesWord_of_storeTo rfl,
    fun hout => exec_faultedAt (firstOutOfBounds_cons_outOfBounds (Nat.not_lt.mpr hout))⟩

/-- Settles O26: STI's accesses are the read of the pointer and the write through it, in that order. -/
theorem stiResult : Obligations.StiResult := by
  unfold Obligations.StiResult
  rintro ir s _ _ hop rfl rfl
  refine ⟨(Layout.sti hop).decode_eq, State.pcRelative_toInt s _, fun hin => exec_storesWord_of_storeTo (effect_sti hin),
    fun hin hout => ?through, fun hout => exec_faultedAt (firstOutOfBounds_cons_outOfBounds (Nat.not_lt.mpr hout))⟩
  case through =>
    exact exec_faultedAt ((firstOutOfBounds_cons_inBounds hin).trans
      (firstOutOfBounds_cons_outOfBounds (Nat.not_lt.mpr hout)))

end Sys2Proof
end

section
/-! PROOFS. The control family (43_control.md): the jumps through a register, TRAP, the two opcodes without a meaning of their own
(section 4), and the two extremes of BR. -/

namespace Sys2Proof.Machine

open Sys2Proof.Claims

/-- The CURRENT flags always hold one of N, Z and P (10_state.md R25). -/
theorem branchTaken_all (cc : CC) : branchTaken true true true cc = true := by cases cc <;> rfl

theorem branchTaken_none (cc : CC) : branchTaken false false false cc = false := rfl

/-- TRAP always commits. For a vector other than 0x25 it leaves in NEXT the PCinc of the fetch. -/
theorem exec_trap (vector : Nat) (s : State) : exec (.trap vector) s =
    .next (s.commit (s.latch.setPc (if vector = Config.haltVector then Config.haltSentinel else s.pcInc))) := by
  rw [exec_eq_finish, effect, State.finish_ok]
  split <;> rfl

end Sys2Proof.Machine

namespace Sys2Proof

open Sys2Proof.Machine Sys2Proof.Claims

theorem toNat_vector8_eq_iff {ir : Word} : (vector8Of ir).toNat = Config.haltVector ↔ vector8Of ir = 0x25#8 :=
  BitVec.toNat_inj (y := 0x25#8)

/-- Settles O29: BR commits, and its condition is false without a test bit and true with all three. -/
theorem brNeverAndAlways : Obligations.BrNeverAndAlways := by
  unfold Obligations.BrNeverAndAlways
  intro o s
  refine ⟨⟨_, exec_br _ _ _ _ s, ?never⟩, ⟨_, exec_br _ _ _ _ s, ?always⟩⟩
  case never => exact movesPc_commit s _
  case always =>
    rw [if_pos (branchTaken_all _), State.pcRelative_toInt]
    exact movesPc_commit s _

/-- Settles O31: the Word is laid out as JSRR, whose effect is the linking jump to the base register's CURRENT value. -/
theorem jsrrResult : Obligations.JsrrResult := by
  unfold Obligations.JsrrResult
  intro ir s hop hmode
  exact ⟨(Layout.jsrr hop hmode).decode_eq, exec_linksAndJumps_of_linkAndJump rfl⟩

/-- Settles O32: the Word is laid out as JMP, whose effect is JSRR's. -/
theorem jmpResult : Obligations.JmpResult := by
  unfold Obligations.JmpResult
  intro ir s hop
  refine ⟨(Layout.jmp hop).decode_eq, ?sameAsJsrr, exec_linksAndJumps_of_linkAndJump rfl⟩
  case sameAsJsrr => rw [exec_eq_finish, exec_eq_finish, effect, effect]

/-- Settles O33: the Word is laid out as TRAP, whose commit moves the PC alone. -/
theorem trapResult : Obligations.TrapResult := by
  unfold Obligations.TrapResult
  intro ir s hop
  refine ⟨(Layout.trap hop).decode_eq, _, exec_trap _ s, ?_⟩
  simp only [toNat_vector8_eq_iff]
  exact movesPc_commit s _

/-- Settles O34: under this hardware's policy the executor of both opcodes leaves NEXT as the fetch made it. -/
theorem unimplementedOpcodesAreNoOps : Obligations.UnimplementedOpcodesAreNoOps := by
  unfold Obligations.UnimplementedOpcodesAreNoOps
  intro ir s
  refine ⟨fun hop => ⟨(Layout.rti hop).decode_eq, ?_⟩, fun hop => ⟨(Layout.reserved13 hop).decode_eq, ?_⟩⟩
  all_goals
    refine ⟨s.commit s.latch, ?_, movesPc_commit s s.pcInc⟩
    rw [exec_eq_finish]
    rfl

end Sys2Proof
end

section
/-! PROOFS. An instruction placed at the fetch address (20_memory.md R60), and the halt of a TRAP x25 (70_reset_and_hazards.md
section 3). -/

namespace Sys2Proof.Machine

open Sys2Proof.Claims

variable {s : State}

theorem State.withFetchWord_toNat (s : State) (ir : Word) : s.withFetchWord 16 ir.toNat = s.placeAtFetch ir := by
  rw [State.withFetchWord, Nat.mod_eq_of_lt ir.isLt, BitVec.ofNat_toNat, BitVec.setWidth_eq]

theorem State.fetchPc_of_executes (h : Executes s) : s.fetchPc = s.pc :=
  let ⟨_, hp, hb⟩ := h
  if_pos ⟨hp, hb⟩

/-- The fetch address is one that the step fetches from. -/
theorem State.fetchPc_ok (s : State) : s.fetchPc ≠ Config.haltSentinel ∧ InBounds s.fetchPc := by
  unfold State.fetchPc
  split
  next h => exact h
  next => decide

theorem State.executes_placeAtFetch (s : State) (ir : Word) : Executes (s.placeAtFetch ir) :=
  ⟨rfl, s.fetchPc_ok.1, s.fetchPc_ok.2⟩

end Sys2Proof.Machine

namespace Sys2Proof

open Sys2Proof.Machine Sys2Proof.Claims

/-- Settles O44: the placed Word is the one that the next step fetches. -/
theorem placedInstructionRunsNext : Obligations.PlacedInstructionRunsNext := by
  unfold Obligations.PlacedInstructionRunsNext
  intro s ir placed
  have hplaced : placed = s.placeAtFetch ir := s.withFetchWord_toNat ir
  have hexec := s.executes_placeAtFetch ir
  rw [hplaced]
  refine ⟨hexec, ?runs, fun h => ?frame⟩
  case runs =>
    rw [step_of_executes hexec, State.placeAtFetch_mem, State.placeAtFetch_pc, Memory.readWord_writeWord_same]
  case frame =>
    rw [State.placeAtFetch, State.fetchPc_of_executes h, ← h.1]
    rfl

/-- Settles O53: the TRAP's step moves the PC to the sentinel, the step after it takes the halt check, and the one after that
finds the engine stopped. -/
theorem haltTakesOneExtraStep : Obligations.HaltTakesOneExtraStep := by
  unfold Obligations.HaltTakesOneExtraStep
  intro s hs hop hvector
  have htrap : step s = .next (s.commit (s.latch.setPc Config.haltSentinel)) := by
    rw [step_of_executes hs, (Layout.trap hop).decode_eq, exec_trap, if_pos (toNat_vector8_eq_iff.mpr hvector)]
  set t := s.commit (s.latch.setPc Config.haltSentinel)
  have ht : t.run = .running := hs.1
  have hhalt : step t = .next t.halt := step_of_sentinel ht rfl
  have hstop : step t.halt = .next t.halt := step_of_stopped (by simp)
  refine ⟨t, t.halt, ?trap, movesPc_commit s _, ?notYet, State.stepCommand_next hhalt, rfl, rfl,
    State.stepCommand_next hstop⟩
  case trap => rw [State.stepCommand_next htrap, State.result_ok.mpr ht]
  case notYet => simp [State.isHalted, ht]

end Sys2Proof
end
